-- ==== Sys2Proof/Word.lean ====
section
/-! DEFINITION. The word types of the CISS codec block (spec/00_scope.md R6, R7). -/

namespace Sys2Proof

/-- A byte, 8 bits (`W_BYTE`, 00 R6). -/
abbrev Byte := BitVec 8

/-- A command argument, 32 bits, two's complement (`W_ARG`, 00 R6, decision D7). -/
abbrev Arg := BitVec 32

/-- A raw count of one axis, 16 bits (10 R38). -/
abbrev Count := BitVec 16

end Sys2Proof
end

