-- ==== Sys2Proof/Syntax.lean ====
section
/-! DEFINITION. What the outside offers the block (port events), the operations of the opcode table, and the names the
host's sequencer uses. One constructor of `Instr` for each of the 17 rows of spec/opcode_table.json. -/

namespace Sys2Proof

/-- One event of an input channel, with all its fields: CK (10 R32), CMD (10 R33), RX (10 R35). -/
inductive PortEvent where
  | ck (op : BitVec 2) (mode : Bool) (byte : Byte)
  | cmd (op : BitVec 2) (sid : Byte) (arg : Arg)
  | rx (byte : Byte) (last : Bool)
  deriving DecidableEq, Repr

/-- The three 16-bit patterns of a sensor segment, each `le16(lo, hi)` (30 R76). -/
structure Triple where
  x : Count
  y : Count
  z : Count
  deriving DecidableEq, Repr

/-- The two bytes of an enable-ack that are read (30 R77). -/
structure AckBytes where
  sid : Byte
  flag : Byte
  deriving DecidableEq, Repr

/-- The operations of the block. Fields that an operation ignores are operands as well, so that an event keeps all its
bits. A segment whose payload is cut short carries `none` (43 R177, R181): its left-over bytes are not examined. -/
inductive Instr where
  /-- CK_START (40 R103): `mode` is `ck_mode`; the byte is ignored. -/
  | ckStart (mode : Bool) (byte : Byte)
  /-- CK_ABSORB (40 R104): the mode is ignored. -/
  | ckAbsorb (mode : Bool) (byte : Byte)
  /-- CK_READ (40 R105): both fields are ignored. -/
  | ckRead (mode : Bool) (byte : Byte)
  /-- Reserved `ck_op` 11 (40 R106): both fields are ignored. -/
  | ckReserved (mode : Bool) (byte : Byte)
  /-- CKSUM_OUT, `outbound_checksum(bytes)` (40 R109). -/
  | cksumOut (bytes : List Byte)
  /-- CKSUM_IN, `inbound_checksum(bytes)` (40 R110). -/
  | cksumIn (bytes : List Byte)
  /-- DISABLE (41 R125): the argument is ignored. -/
  | disable (sid : Byte) (arg : Arg)
  /-- ENABLE (41 R126): the argument is ignored. -/
  | enable (sid : Byte) (arg : Arg)
  /-- SET_ACCEL_RANGE (41 R127): the sensor id is ignored. -/
  | setAccelRange (sid : Byte) (arg : Arg)
  /-- SET_SAMPLING_RATE (41 R128). -/
  | setSamplingRate (sid : Byte) (arg : Arg)
  /-- VALIDATE of a raw frame, checksum byte last (42 R151). -/
  | validate (raw : List Byte)
  /-- DECODE of a payload, length byte first (43 R171). -/
  | decode (payload : List Byte)
  /-- SEG_ENABLE_ACK (43 R180); `none` when fewer than 2 bytes follow the tag (43 R181). -/
  | segEnableAck (ack : Option AckBytes)
  /-- SEG_ACC (43 R184); `none` when fewer than 6 bytes follow the tag (43 R177). -/
  | segAcc (axes : Option Triple)
  /-- SEG_MAG (43 R185); `none` as for SEG_ACC. -/
  | segMag (axes : Option Triple)
  /-- SEG_GYRO (43 R187); `none` as for SEG_ACC. -/
  | segGyro (axes : Option Triple)
  /-- A tag outside 1, 2, 3, 4 (43 R182). -/
  | segUnknown (tag : Byte)
  deriving DecidableEq, Repr

/-- The SensorId enumeration (30 R79). -/
inductive SensorId where
  | acc | mag | gyro | env | light
  deriving DecidableEq, Repr

/-- The states of the Configuration Sequencer (44 R200); only acc, mag and gyro occur in the two last families. -/
inductive SeqState where
  | idle
  | disableAll
  | setAccelRange
  | setSampling (sensor : SensorId)
  | enableSensor (sensor : SensorId)
  | ready
  deriving DecidableEq, Repr, Inhabited

end Sys2Proof
end

