-- ==== Sys2Proof/Decode.lean ====
section
/-! DEFINITION. Decoding: port events, runs of events, segments in the frame buffer and command frames, each total and
rejecting by name; then the encoder; then the numbering of spec/opcode_table.json (`decodeTableWord`). -/

namespace Sys2Proof

/-- Why something is no instruction. -/
inductive Reject where
  /-- No event is there. -/
  | noEvent
  /-- The next event is an RX byte and the byte that ends its frame is not there yet (10 R35). -/
  | frameNotEnded
  /-- There is no byte at the cursor. -/
  | noByteAtCursor
  /-- Events are left over after one operation. -/
  | trailingEvents
  /-- The bytes have none of the shapes CF5, CF6, CF9 (30 R85). -/
  | notACommandFrame
  deriving DecidableEq, Repr

/-! ### Byte order (20 R52) -/

/-- `le16(lo, hi)` = lo | (hi << 8) (00 R8). -/
def le16 (lo hi : Byte) : Count := hi ++ lo

def lowByte (v : Count) : Byte := v.extractLsb' 0 8
def highByte (v : Count) : Byte := v.extractLsb' 8 8

/-- The unsigned 32-bit value of four little-endian bytes (30 R73). -/
def word32 (b0 b1 b2 b3 : Byte) : Arg := b3 ++ b2 ++ b1 ++ b0

/-! ### Port events (30 R90) -/

/-- `ck_op`: 00 CK_START, 01 CK_ABSORB, 10 CK_READ, 11 reserved. -/
def decodeCk (op : BitVec 2) (mode : Bool) (byte : Byte) : Instr :=
  if op = 0 then .ckStart mode byte
  else if op = 1 then .ckAbsorb mode byte
  else if op = 2 then .ckRead mode byte
  else .ckReserved mode byte

/-- `cmd_op`: 00 DISABLE, 01 ENABLE, 10 SET_ACCEL_RANGE, 11 SET_SAMPLING_RATE. -/
def decodeCmd (op : BitVec 2) (sid : Byte) (arg : Arg) : Instr :=
  if op = 0 then .disable sid arg
  else if op = 1 then .enable sid arg
  else if op = 2 then .setAccelRange sid arg
  else .setSamplingRate sid arg

/-- The drawing of a CK event in spec/opcode_table.json: bits 10:9 `ck_op`, bit 8 `ck_mode`, bits 7:0 `ck_byte`. -/
def ckOfWord (w : BitVec 11) : PortEvent := .ck (w.extractLsb' 9 2) (w.getLsbD 8) (w.extractLsb' 0 8)

def ckWord (op : BitVec 2) (mode : Bool) (byte : Byte) : BitVec 11 := op ++ BitVec.ofBool mode ++ byte

/-! ### Whole operations in a run of events (30 R91) -/

/-- CK_ABSORB events up to a CK_READ: the bytes absorbed, and the events after the CK_READ. -/
def takeAbsorbs : List PortEvent → Option (List Byte × List PortEvent)
  | .ck op _ b :: es =>
    if op = 1 then
      match takeAbsorbs es with
      | some (bs, rest) => some (b :: bs, rest)
      | none => none
    else if op = 2 then some ([], es)
    else none
  | _ => none

/-- The first RX event, and the events without it, their order kept (20 R60: RECEIVING accepts nothing but RX). -/
def takeRx : List PortEvent → Option (Byte × Bool × List PortEvent)
  | [] => none
  | .rx b last :: es => some (b, last, es)
  | e :: es =>
    match takeRx es with
    | some (b, last, rest) => some (b, last, e :: rest)
    | none => none

/-- The RX events up to the first with `rx_last` = 1: the raw frame, and the other events in their order. -/
def takeFrame : List PortEvent → Option (List Byte × List PortEvent)
  | [] => none
  | .rx b true :: es => some ([b], es)
  | .rx b false :: es =>
    match takeFrame es with
    | some (bs, rest) => some (b :: bs, rest)
    | none => none
  | e :: es =>
    match takeFrame es with
    | some (bs, rest) => some (bs, e :: rest)
    | none => none

/-- The operation that a run of events begins with, taken whole, and the events after it. A CK_START that a complete
checksum sequence follows is CKSUM_OUT or CKSUM_IN (30 R91); any other CK event is an operation by itself. -/
def decodeOperation : List PortEvent → Except Reject (Instr × List PortEvent)
  | [] => .error .noEvent
  | .ck op mode byte :: es =>
    if op = 0 then
      match takeAbsorbs es with
      | some (bs, rest) => .ok (if mode then .cksumOut bs else .cksumIn bs, rest)
      | none => .ok (.ckStart mode byte, es)
    else .ok (decodeCk op mode byte, es)
  | .cmd op sid arg :: es => .ok (decodeCmd op sid arg, es)
  | .rx b last :: es =>
    match takeFrame (.rx b last :: es) with
    | some (raw, rest) => .ok (.validate raw, rest)
    | none => .error .frameNotEnded

/-! ### Segments (30 R76 to R78) -/

/-- The six bytes after a sensor tag, or `none` when fewer are there (43 R177). -/
def axesOf : List Byte → Option Triple
  | lx :: hx :: ly :: hy :: lz :: hz :: _ => some { x := le16 lx hx, y := le16 ly hy, z := le16 lz hz }
  | _ => none

/-- The two bytes after an enable-ack tag, or `none` when fewer are there (43 R181). -/
def ackOf : List Byte → Option AckBytes
  | sid :: flag :: _ => some { sid := sid, flag := flag }
  | _ => none

/-- The segment at the front of the given bytes, dispatched on the whole tag byte (43 R175). -/
def decodeSegment : List Byte → Except Reject Instr
  | [] => .error .noByteAtCursor
  | t :: rest =>
    if t = 1 then .ok (.segEnableAck (ackOf rest))
    else if t = 2 then .ok (.segAcc (axesOf rest))
    else if t = 3 then .ok (.segMag (axesOf rest))
    else if t = 4 then .ok (.segGyro (axesOf rest))
    else .ok (.segUnknown t)

/-! ### Command frames as the table draws them (30 R71 to R73, R85)

The block builds these and never decodes one; this reader serves the table's patterns. The checksum byte is a result
and is not examined; an ignored port field reads as 0 (CF5's argument) or as the frame's own byte (CF6). Log 13. -/

def decodeWire : List Byte → Except Reject Instr
  | [m, op, sid, onoff, _] =>
    if m = 0xFE ∧ op = 0x02 ∧ onoff = 0x00 then .ok (.disable sid 0)
    else if m = 0xFE ∧ op = 0x02 ∧ onoff = 0x01 then .ok (.enable sid 0)
    else .error .notACommandFrame
  | [m, op, sid, sub, range, _] =>
    if m = 0xFE ∧ op = 0x03 ∧ sid = 0x80 ∧ sub = 0x04 then .ok (.setAccelRange sid (range.setWidth 32))
    else .error .notACommandFrame
  | [m, op, sid, sub, r0, r1, r2, r3, _] =>
    if m = 0xFE ∧ op = 0x06 ∧ sub = 0x02 then .ok (.setSamplingRate sid (word32 r0 r1 r2 r3))
    else .error .notACommandFrame
  | _ => .error .notACommandFrame

/-! ### The encoder -/

/-- An instruction as it stands where the block takes it: events on the input channels, a segment at the decoder's
cursor, or a payload in the frame buffer. -/
inductive Code where
  | events (es : List PortEvent)
  | segment (bs : List Byte)
  | payload (bs : List Byte)
  deriving DecidableEq, Repr

def decode : Code → Except Reject Instr
  | .events es =>
    match decodeOperation es with
    | .ok (i, []) => .ok i
    | .ok (_, _ :: _) => .error .trailingEvents
    | .error r => .error r
  | .segment bs => decodeSegment bs
  | .payload bs => .ok (.decode bs)

/-- The port form of a checksum sequence (30 R91, 40 R109, R110). What the ignored fields hold (`ck_byte` of CK_START and
CK_READ, `ck_mode` of CK_ABSORB and CK_READ) the spec does not say; they are 0 here. DESIGN CHOICE, log 35. -/
def cksumEvents (mode : Bool) (bytes : List Byte) : List PortEvent :=
  .ck 0 mode 0 :: (bytes.map (PortEvent.ck 1 false) ++ [.ck 2 false 0])

/-- One RX event a byte, `rx_last` on the last (10 R35). -/
def rxEvents : List Byte → List PortEvent
  | [] => []
  | [b] => [.rx b true]
  | b :: c :: bs => .rx b false :: rxEvents (c :: bs)

/-- The six payload bytes of a sensor segment, none when it is cut short. -/
def axesBytes : Option Triple → List Byte
  | some v => [lowByte v.x, highByte v.x, lowByte v.y, highByte v.y, lowByte v.z, highByte v.z]
  | none => []

/-- The six bytes after an enable-ack tag, the four that are stepped over written as 0. -/
def ackBytes : Option AckBytes → List Byte
  | some a => [a.sid, a.flag, 0, 0, 0, 0]
  | none => []

def encode : Instr → Code
  | .ckStart mode byte => .events [.ck 0 mode byte]
  | .ckAbsorb mode byte => .events [.ck 1 mode byte]
  | .ckRead mode byte => .events [.ck 2 mode byte]
  | .ckReserved mode byte => .events [.ck 3 mode byte]
  | .cksumOut bytes => .events (cksumEvents true bytes)
  | .cksumIn bytes => .events (cksumEvents false bytes)
  | .disable sid arg => .events [.cmd 0 sid arg]
  | .enable sid arg => .events [.cmd 1 sid arg]
  | .setAccelRange sid arg => .events [.cmd 2 sid arg]
  | .setSamplingRate sid arg => .events [.cmd 3 sid arg]
  | .validate raw => .events (rxEvents raw)
  | .decode payload => .payload payload
  | .segEnableAck ack => .segment (1 :: ackBytes ack)
  | .segAcc axes => .segment (2 :: axesBytes axes)
  | .segMag axes => .segment (3 :: axesBytes axes)
  | .segGyro axes => .segment (4 :: axesBytes axes)
  | .segUnknown tag => .segment [tag]

/-! ### The numbering of spec/opcode_table.json -/

/-- The `n` bytes of a number, the most significant first: the table's own reading ("first byte leftmost"). -/
def bytesHighFirst : Nat → Nat → List Byte
  | 0, _ => []
  | n + 1, w => BitVec.ofNat 8 (w >>> (8 * n)) :: bytesHighFirst n w

/-- The `n` bytes of a number, the least significant first. -/
def bytesLowFirst : Nat → Nat → List Byte
  | 0, _ => []
  | n + 1, w => BitVec.ofNat 8 w :: bytesLowFirst n (w >>> 8)

/-- A command frame or a whole segment of the table with a defined tag, from its bytes. -/
def codeOfRowBytes (bs : List Byte) : Option Code :=
  match decodeWire bs with
  | .ok i => some (encode i)
  | .error _ =>
    match bs with
    | [t, _, _, _, _, _, _] => if t = 1 ∨ t = 2 ∨ t = 3 ∨ t = 4 then some (.segment bs) else none
    | _ => none

/-- What a table word stands for. A row of 11 bits is a CK event; 8 bits are a tag, followed by six zero bytes; 40, 48,
72 and 56 bits are command frames and segments, the first byte in the HIGHEST bits as the table's match and mask have it,
or, where that is no row, in the lowest; 16 bits that are no CK event are a payload of two bytes; any other whole number of
bytes is a raw frame. Log 11. -/
def tableCode (nbits w : Nat) : Option Code :=
  let n := nbits / 8
  if nbits = 11 ∨ (nbits = 16 ∧ w < 2048) then some (.events [ckOfWord (BitVec.ofNat 11 w)])
  else if n = 0 then none
  else if n = 1 then some (.segment (bytesHighFirst 1 w ++ [0, 0, 0, 0, 0, 0]))
  else if n = 2 then some (.payload (bytesHighFirst 2 w))
  else if n = 5 ∨ n = 6 ∨ n = 7 ∨ n = 9 then
    match codeOfRowBytes (bytesHighFirst n w) with
    | some c => some c
    | none => codeOfRowBytes (bytesLowFirst n w)
  else some (.events (rxEvents (bytesHighFirst n w)))

/-- The instruction this decoder reads from a table word. -/
def decodeTableWord (nbits w : Nat) : Option Instr :=
  match tableCode nbits w with
  | none => none
  | some c =>
    match decode c with
    | .ok i => some i
    | .error _ => none

end Sys2Proof
end

