-- ==== Sys2Proof/Config.lean ====
section
/-! DEFINITION. What is fixed for one machine (`Config`, a field of State, so that every claim ranges over its values) and
the open values of the host side (opaque: nothing can evaluate them). -/

namespace Sys2Proof

/-- How much one step takes (00 R10). `event`: one port event, or one step of 41 R135, R136 or 43 R188.
`operation`: a whole operation where one can be taken whole (41 R137, 43 R188). DESIGN CHOICE, log 1. -/
inductive Grain where
  | event | operation
  deriving DecidableEq, Repr

/-- The parameters of one machine. -/
structure Config where
  /-- `N_MAX`, the capacity of the frame buffer (00 R6: OPEN, default 256, at least 9). Log 2. -/
  nMax : Nat
  grain : Grain
  deriving DecidableEq, Repr

/-- The default of 00 R6, and one port event a step (decision D2). -/
def Config.default : Config := { nMax := 256, grain := .event }

/-- `ABORT_STATE` (92 D25, 44 R209): the sequencer's state after an aborted bring-up. OPEN. Log 21. -/
opaque Config.abortState : SeqState

/-- `FORWARD_ON_UNKNOWN` (00 R6, 92 D15): whether readings before an UnknownSegmentType are forwarded. OPEN. Log 22. -/
opaque Config.forwardOnUnknown : Bool

end Sys2Proof
end

