-- ==== Sys2Proof/Machine/State.lean ====
section
/-! DEFINITION. The state of the block (10 R40), its events, its stops, and the state after reset (10 R41). -/

namespace Sys2Proof.Machine

open Sys2Proof

/-- PHASE, 2 bits (10 R27). -/
inductive Phase where
  | idle | framing | receiving | decoding
  deriving DecidableEq, Repr

/-- END status (10 R39). -/
inductive EndStatus where
  | ok | checksumMismatch | truncatedSegment | unknownSegmentType | frameOverflow
  deriving DecidableEq, Repr

/-- The measurement kind of a reading (10 R38). -/
inductive ReadingKind where
  | acc | mag | gyro
  deriving DecidableEq, Repr

/-- An event of channel EV (10 R38). -/
inductive EvEvent where
  /-- READING: `rd_kind`, `rd_x`, `rd_y`, `rd_z`, `rd_milli`. -/
  | reading (kind : ReadingKind) (x y z : Count) (milli : Bool)
  /-- ACK: `ack_sid`, `ack_flag`. -/
  | ack (sid flag : Byte)
  /-- END: `end_status`, `end_tag`, `end_off`. -/
  | finish (status : EndStatus) (tag : Byte) (off : Nat)
  deriving DecidableEq, Repr

/-- An output event: `ck_result` (10 R32), TX (10 R34), CST (10 R36), EV (10 R37). -/
inductive OutEvent where
  | ckResult (result : Byte)
  | tx (byte : Byte) (last : Bool)
  | cst (coerced : Bool)
  | ev (e : EvEvent)
  deriving DecidableEq, Repr

/-- FB: (index, byte) pairs, indexes strictly rising; an unlisted index holds no value (log 8). -/
abbrev Memory := List Host.Cell

/-- The registers of 10 R40, the reset input, the offered and the transferred events, and the machine's parameters.
`vLen`, `dLen` and `dCur` are Nats that the invariant bounds by N_MAX (log 3). -/
structure State where
  /-- The machine's parameters (00 R6); no step changes them. -/
  cfg : Config
  /-- The level of the reset input `rst` (70 R260); only the outside changes it. -/
  rst : Bool
  /-- PHASE (10 R27). -/
  phase : Phase
  /-- MODE (10 R22): true is 1, outbound. -/
  mode : Bool
  /-- ACC (10 R23). -/
  acc : Byte
  /-- F_OP (10 R24). -/
  fOp : BitVec 2
  /-- F_SID (10 R24). -/
  fSid : Byte
  /-- F_VAL (10 R24). -/
  fVal : BitVec 32
  /-- F_COERCED (10 R24). -/
  fCoerced : Bool
  /-- F_LEN (10 R24). -/
  fLen : BitVec 4
  /-- F_IDX (10 R24). -/
  fIdx : BitVec 4
  /-- V_LEN (10 R25). -/
  vLen : Nat
  /-- V_OVF (10 R25). -/
  vOvf : Bool
  /-- FB (20 R51). -/
  fb : Memory
  /-- D_LEN (10 R26). -/
  dLen : Nat
  /-- D_CUR (10 R26). -/
  dCur : Nat
  /-- The input events offered and not yet accepted, oldest first, of all three input channels (log 4). -/
  offered : List PortEvent
  /-- The output events transferred so far, oldest first, of all channels (log 6). -/
  emitted : List OutEvent
  deriving DecidableEq, Repr

/-- Where the machine stops with no rule to go on. All three are safe: the block has no such behaviour, and none is
reached from a state that meets the invariant of Sys2Proof/Safety.lean. -/
inductive Fault where
  /-- A read of a frame buffer cell that nothing has written since reset (10 R42). Raised by `readCells`. Safe. -/
  | unwrittenCell (index : Nat)
  /-- `MemRead(addr, n)` with addr + n > D_LEN (20 R55). Raised by `memRead`. Safe. -/
  | illegalRead (addr n : Nat)
  /-- FRAMING with F_IDX past F_LEN, or at a blank of the table of 41 R135 (log 24). Raised by `framerStep`. Safe. -/
  | noFramerRule
  deriving DecidableEq, Repr

/-- Where an operation is refused. -/
inductive Refusal where
  /-- Raised by `exec`'s arm of an instruction that has no meaning yet. Safe. -/
  | notModelled (mnemonic : String)
  /-- VALIDATE of an empty sequence (42 R153 b, 93 U4, log 15). Raised by `execValidate`. Safe. -/
  | emptyRawFrame
  deriving DecidableEq, Repr

/-- The state after reset (10 R41, 70 R261), with the default parameters, nothing offered and nothing transferred. -/
def State.reset : State where
  cfg := Config.default
  rst := false
  phase := .idle
  mode := false
  acc := 0
  fOp := 0
  fSid := 0
  fVal := 0
  fCoerced := false
  fLen := 0
  fIdx := 0
  vLen := 0
  vOvf := false
  fb := []
  dLen := 0
  dCur := 0
  offered := []
  emitted := []

end Sys2Proof.Machine
end

