-- ==== Sys2Proof/Machine/Operands.lean ====
section
/-! DEFINITION. The values the operations compute: the exclusive-or fold and the two checksums (40), the coerced command
arguments and the bodies of the command frames (30, 41), the sign conversion and the value of an axis (43), and the codes
of the port fields (10 R27, R38, R39). -/

namespace Sys2Proof.Machine

open Sys2Proof

/-! ### Checksums -/

/-- `XORFOLD` (40 R101), the first byte first; 0x00 for the empty sequence (decision D5). -/
def xorFold : List Byte → Byte
  | [] => 0
  | b :: bs => b ^^^ xorFold bs

/-- The outbound constant 254 (40 R100). -/
def outboundConstant : Byte := 0xFE

/-- The result of a checksum read: ACC, exclusive-or 0xFE in outbound mode (40 R105). -/
def ckResult (mode : Bool) (acc : Byte) : Byte := acc ^^^ (if mode then outboundConstant else 0x00)

/-- `outbound_checksum` (40 R109). -/
def outboundChecksum (s : List Byte) : Byte := xorFold s ^^^ outboundConstant

/-- `inbound_checksum` (40 R110). -/
def inboundChecksum (s : List Byte) : Byte := xorFold s

/-! ### Command arguments and frames -/

/-- `coerce_range` (41 R121), on all of Z. -/
def coerceRange (r : Int) : Nat :=
  if r = 2 ∨ r = 4 ∨ r = 6 ∨ r = 8 ∨ r = 16 then r.toNat else 16

/-- `coerce_rate` (41 R122), on all of Z. -/
def coerceRate (r : Int) : Nat := if 500 ≤ r ∧ r ≤ 1000000 then r.toNat else 100000

/-- `le_u32` (41 R123). -/
def leU32 (v : BitVec 32) : List Byte :=
  [v.extractLsb' 0 8, v.extractLsb' 8 8, v.extractLsb' 16 8, v.extractLsb' 24 8]

/-- F_VAL for SET_ACCEL_RANGE (41 R134). -/
def rangeValue (arg : Arg) : BitVec 32 := BitVec.ofNat 32 (coerceRange arg.toInt)

/-- F_VAL for SET_SAMPLING_RATE (41 R134). -/
def rateValue (arg : Arg) : BitVec 32 := BitVec.ofNat 32 (coerceRate arg.toInt)

/-- The start marker (30 R74). -/
def startMarker : Byte := 0xFE

/-- Format CF5 without its checksum (30 R71). -/
def onOffBody (sid onoff : Byte) : List Byte := [startMarker, 0x02, sid, onoff]

/-- Format CF6 without its checksum (30 R72). -/
def rangeBody (v : BitVec 32) : List Byte := [startMarker, 0x03, 0x80, 0x04, v.extractLsb' 0 8]

/-- Format CF9 without its checksum (30 R73). -/
def rateBody (sid : Byte) (v : BitVec 32) : List Byte := [startMarker, 0x06, sid, 0x02] ++ leU32 v

/-- `frame(body)` (41 R124). -/
def frame (body : List Byte) : List Byte := body ++ [outboundChecksum body]

/-! ### Readings -/

/-- Bitwise or on the integers in unbounded two's complement (43 R178, decision D14): the cases are those of the signs,
-[m+1] standing for the bits that are not in m. -/
def intOr : Int → Int → Int
  | .ofNat a, .ofNat b => .ofNat (a ||| b)
  | .negSucc a, .ofNat b => .negSucc (a ^^^ (a &&& b))
  | .ofNat a, .negSucc b => .negSucc (b ^^^ (b &&& a))
  | .negSucc a, .negSucc b => .negSucc (a &&& b)

/-- `signed16(v) = -(v & 0x8000) | (v & 0x7fff)`, the source's own formula (43 R178). -/
def signed16 (v : Count) : Int :=
  intOr (-((v.toNat &&& 0x8000 : Nat) : Int)) ((v.toNat &&& 0x7fff : Nat) : Int)

/-- The 16-bit axis register of a READING: it holds `signed16(v)` in two's complement (10 R38). -/
def axisCount (v : Count) : Count := BitVec.ofInt 16 (signed16 v)

/-- The exact number an axis of a READING denotes (43 R179): thousandths when `rd_milli` is 1. -/
def axisValue (milli : Bool) (raw : Count) : ℚ := if milli then (raw.toInt : ℚ) / 1000 else (raw.toInt : ℚ)

/-- The three exact values of a READING; an ACK or END denotes none. -/
def EvEvent.values : EvEvent → Option (ℚ × ℚ × ℚ)
  | .reading _ x y z milli => some (axisValue milli x, axisValue milli y, axisValue milli z)
  | .ack _ _ => none
  | .finish _ _ _ => none

/-! ### Codes of the port fields -/

/-- PHASE (10 R27). -/
def Phase.code : Phase → BitVec 2
  | .idle => 0
  | .framing => 1
  | .receiving => 2
  | .decoding => 3

/-- `end_status` (10 R39). -/
def EndStatus.code : EndStatus → BitVec 3
  | .ok => 0
  | .checksumMismatch => 1
  | .truncatedSegment => 2
  | .unknownSegmentType => 3
  | .frameOverflow => 4

/-- `rd_kind`, the segment's tag value (10 R38). -/
def ReadingKind.code : ReadingKind → BitVec 3
  | .acc => 2
  | .mag => 3
  | .gyro => 4

/-- The tag byte of a sensor segment (30 R78). -/
def ReadingKind.tag : ReadingKind → Byte
  | .acc => 0x02
  | .mag => 0x03
  | .gyro => 0x04

/-- `ev_kind` (10 R38). -/
def EvEvent.code : EvEvent → BitVec 2
  | .reading _ _ _ _ _ => 0
  | .ack _ _ => 1
  | .finish _ _ _ => 2

end Sys2Proof.Machine
end

