-- ==== Sys2Proof/Machine/Flags.lean ====
section
/-! DEFINITION. The three one-bit conditions (10 R29): F_COERCED, V_OVF and the checksum verdict; and `rd_milli`. -/

namespace Sys2Proof.Machine

open Sys2Proof

/-- `range_coerced` (41 R121). -/
def rangeCoerced (r : Int) : Bool := !(r == 2 || r == 4 || r == 6 || r == 8 || r == 16)

/-- `rate_coerced` (41 R122). -/
def rateCoerced (r : Int) : Bool := !(decide (500 ≤ r) && decide (r ≤ 1000000))

/-- A raw frame byte does not fit: V_LEN = N_MAX (10 R29, 42 R157). -/
def bufferFull (s : State) : Bool := !decide (s.vLen < s.cfg.nMax)

/-- The checksum verdict at the last byte of a raw frame, true when it matched (10 R29, 42 R158). -/
def checksumRight (s : State) : Bool := s.acc == 0x00

/-- `rd_milli` is 1 iff the kind is acc (10 R38). -/
def isMilli : ReadingKind → Bool
  | .acc => true
  | .mag => false
  | .gyro => false

end Sys2Proof.Machine
end

