-- ==== Sys2Proof/Machine/Ops.lean ====
section
/-! DEFINITION. The named operations every unit uses: the frame buffer, the emission of events, the raising of a fault
(60 R232, the only kind of exception there is; it has no return, 60 R234), the reset input, and the acceptance of an
operation in IDLE or DECODING. -/

namespace Sys2Proof.Machine

open Sys2Proof

/-! ### The frame buffer -/

/-- The byte at an index, if one has been written. -/
def fbGet : Memory → Nat → Option Byte
  | [], _ => none
  | (a, b) :: m, k => if k = a then some b else fbGet m k

/-- Write one byte, the indexes kept strictly rising. -/
def fbSet : Memory → Nat → Byte → Memory
  | [], k, v => [(k, v)]
  | (a, b) :: m, k, v =>
    if k < a then (k, v) :: (a, b) :: m
    else if k = a then (k, v) :: m
    else (a, b) :: fbSet m k v

/-- The canonical form: indexes strictly rising. -/
abbrev Memory.wf (m : Memory) : Prop := m.Pairwise (fun c d => c.1 < d.1)

/-- `n` bytes from an index on, each of them written. -/
def readCells (m : Memory) (addr : Nat) : Nat → Except Fault (List Byte)
  | 0 => .ok []
  | n + 1 =>
    match fbGet m addr with
    | none => .error (.unwrittenCell addr)
    | some b =>
      match readCells m (addr + 1) n with
      | .ok bs => .ok (b :: bs)
      | .error f => .error f

/-- `MemRead(addr, n)`, legal only inside the payload (20 R55). -/
def memRead (s : State) (addr n : Nat) : Except Fault (List Byte) :=
  if addr + n ≤ s.dLen then readCells s.fb addr n else .error (.illegalRead addr n)

/-- `MemWrite(addr, 1, v)` (00 R9). -/
def State.memWrite (s : State) (addr : Nat) (v : Byte) : State := { s with fb := fbSet s.fb addr v }

/-! ### Events and faults -/

/-- Transfer output events, in order. -/
def State.emit (s : State) (es : List OutEvent) : State := { s with emitted := s.emitted ++ es }

/-- `raise <Fault>(info)` (60 R232): emit END, return to IDLE, and nothing more. -/
def State.raise (s : State) (status : EndStatus) (tag : Byte) (off : Nat) : State :=
  { s.emit [.ev (.finish status tag off)] with phase := .idle }

/-! ### Acceptance (20 R60)

An operation offered in another phase is not accepted: the state stays as it is (log 23). -/

def whenIdle (s : State) (accepted : State) : Host.Outcome State Fault Refusal :=
  if s.phase = .idle then .next accepted else .next s

def whenDecoding (s : State) (accepted : State) : Host.Outcome State Fault Refusal :=
  if s.phase = .decoding then .next accepted else .next s

/-! ### The reset input (70 R261) -/

/-- While `rst` is asserted the registers take their reset values, FB holds nothing readable, and no event is accepted or
emitted; the parameters, the input's level and the events on the outside stay (log 7). -/
def State.holdReset (s : State) : State :=
  { State.reset with cfg := s.cfg, rst := s.rst, offered := s.offered, emitted := s.emitted }

end Sys2Proof.Machine
end

