-- ==== Sys2Proof/Machine/Checksum.lean ====
section
/-! DEFINITION. checksum_gen (spec/40_checksum_gen.md): the four CK events and the two whole checksum sequences. -/

namespace Sys2Proof.Machine

open Sys2Proof

/-- `MODE <- m ; ACC <- 0x00` (40 R103), also at the start of a command (41 R134) and of a frame (42 R156). -/
def State.startChecksum (s : State) (m : Bool) : State := { s with mode := m, acc := 0x00 }

/-- `ACC <- ACC ^ b` (40 R104). -/
def State.absorb (s : State) (b : Byte) : State := { s with acc := s.acc ^^^ b }

/-- A whole sequence CK_START(m), CK_ABSORB of each byte, CK_READ (30 R91, 40 R107). -/
def State.checksumSequence (s : State) (m : Bool) (bytes : List Byte) : State :=
  { s with mode := m, acc := xorFold bytes }

/-- CK_START (40 R103). -/
def execCkStart (mode : Bool) (_byte : Byte) (s : State) : Host.Outcome State Fault Refusal :=
  whenIdle s (s.startChecksum mode)

/-- CK_ABSORB (40 R104). -/
def execCkAbsorb (_mode : Bool) (byte : Byte) (s : State) : Host.Outcome State Fault Refusal :=
  whenIdle s (s.absorb byte)

/-- CK_READ (40 R105): ACC and MODE are not changed. -/
def execCkRead (_mode : Bool) (_byte : Byte) (s : State) : Host.Outcome State Fault Refusal :=
  whenIdle s (s.emit [.ckResult (ckResult s.mode s.acc)])

/-- Reserved `ck_op` = 11 (40 R106): accepted, no register changes, no result. -/
def execCkReserved (_mode : Bool) (_byte : Byte) (s : State) : Host.Outcome State Fault Refusal :=
  whenIdle s s

/-- CKSUM_OUT (40 R109). -/
def execCksumOut (bytes : List Byte) (s : State) : Host.Outcome State Fault Refusal :=
  whenIdle s ((s.checksumSequence true bytes).emit [.ckResult (outboundChecksum bytes)])

/-- CKSUM_IN (40 R110). -/
def execCksumIn (bytes : List Byte) (s : State) : Host.Outcome State Fault Refusal :=
  whenIdle s ((s.checksumSequence false bytes).emit [.ckResult (inboundChecksum bytes)])

end Sys2Proof.Machine
end

