-- ==== Sys2Proof/Machine/Validator.lean ====
section
/-! DEFINITION. frame_validator (spec/42_frame_validator.md): `validate` as a function of the raw frame (R151), the RX
event (R156 to R160), and VALIDATE as the run of its RX events. -/

namespace Sys2Proof.Machine

open Sys2Proof

/-- The result of `validate` (42 R151). -/
inductive Verdict where
  | ok (payload : List Byte)
  | checksumMismatch
  deriving DecidableEq, Repr

/-- `validate(R)` (42 R151); `none` on the empty sequence, which is outside its domain (42 R153 b). -/
def validateFrame (raw : List Byte) : Option Verdict :=
  match raw.getLast? with
  | none => none
  | some rc => some (if inboundChecksum raw.dropLast = rc then .ok raw.dropLast else .checksumMismatch)

/-- `serialize_with_checksum(b)` (30 R92). -/
def serializeWithChecksum (b : List Byte) : List Byte := b ++ [inboundChecksum b]

/-- Frame start (42 R156). -/
def State.frameStart (s : State) : State :=
  { s.startChecksum false with vLen := 0, vOvf := false, phase := .receiving }

/-- Every RX byte (42 R157). -/
def State.storeRx (s : State) (b : Byte) : State :=
  if bufferFull s then { s.absorb b with vOvf := true }
  else { (s.absorb b).memWrite s.vLen b with vLen := s.vLen + 1 }

/-- Decode start (43 R186). -/
def State.decodeStart (s : State) : State :=
  { s with dLen := s.vLen - 1, dCur := min 1 (s.vLen - 1), phase := .decoding }

/-- The last byte's verdict (42 R158, then R159, then R160). -/
def State.verdict (s : State) : State :=
  if checksumRight s then
    if s.vOvf then s.raise .frameOverflow 0 0 else s.decodeStart
  else s.raise .checksumMismatch 0 0

/-- An accepted RX byte of the frame in progress. -/
def State.receiveByte (s : State) (b : Byte) (last : Bool) : State :=
  if last then (s.storeRx b).verdict else s.storeRx b

/-- One RX event (42 R156 to R160): accepted in IDLE, where it starts a frame, and in RECEIVING (20 R60). -/
def State.rxEvent (s : State) (b : Byte) (last : Bool) : State :=
  match s.phase with
  | .idle => s.frameStart.receiveByte b last
  | .receiving => s.receiveByte b last
  | .framing => s
  | .decoding => s

/-- The RX events of a raw frame, `rx_last` on the last byte. -/
def State.rxRun (s : State) : List Byte → State
  | [] => s
  | [b] => s.rxEvent b true
  | b :: c :: bs => (s.rxEvent b false).rxRun (c :: bs)

/-- VALIDATE (42 R151) as the run of its RX events (30 R91); an empty sequence is refused (42 R153 b, log 15). -/
def execValidate (raw : List Byte) (s : State) : Host.Outcome State Fault Refusal :=
  if raw.isEmpty then .refused .emptyRawFrame else .next (s.rxRun raw)

end Sys2Proof.Machine
end

