-- ==== Sys2Proof/Machine/FieldDecoder.lean ====
section
/-! DEFINITION. field_decoder (spec/43_field_decoder.md): `decode` as a function of the payload (R171), `receive` (R190),
the fetch of a segment at the cursor (R175), and the meaning of DECODE and of every segment kind. -/

namespace Sys2Proof.Machine

open Sys2Proof

/-! ### `decode` and `receive` as functions -/

/-- The READING of a sensor segment (43 R178, R179). -/
def readingOf (kind : ReadingKind) (v : Triple) : EvEvent :=
  .reading kind (axisCount v.x) (axisCount v.y) (axisCount v.z) (isMilli kind)

/-- The kind of a sensor tag (43 R175). -/
def sensorKind (t : Byte) : Option ReadingKind :=
  if t = 2 then some .acc else if t = 3 then some .mag else if t = 4 then some .gyro else none

/-- The loop of 43 R171 over the bytes from the cursor on, with the payload's length and the cursor: the events, and the
cursor at the end (on a fault it stays on the tag, 43 R182, R188). The fuel exceeds the number of bytes. -/
def decodeLoop (n : Nat) : Nat → Nat → List Byte → List EvEvent × Nat
  | 0, cur, _ => ([], cur)
  | _ + 1, cur, [] => ([.finish .ok 0 0], cur)
  | fuel + 1, cur, t :: rest =>
    match sensorKind t with
    | some kind =>
      match axesOf rest with
      | some v =>
        let r := decodeLoop n fuel (cur + 7) (rest.drop 6)
        (readingOf kind v :: r.1, r.2)
      | none => ([.finish .truncatedSegment t cur], cur)
    | none =>
      if t = 1 then
        match ackOf rest with
        | some a =>
          let r := decodeLoop n fuel (min (cur + 7) n) (rest.drop 6)
          (.ack a.sid a.flag :: r.1, r.2)
        | none => ([.finish .truncatedSegment t cur], cur)
      else ([.finish .unknownSegmentType t cur], cur)

/-- DECODE of a payload (43 R171), with the final cursor: the length byte is skipped (R173); an empty payload is the end
at once (R172). -/
def decodeRun (payload : List Byte) : List EvEvent × Nat :=
  match payload with
  | [] => ([.finish .ok 0 0], 0)
  | _ :: segments => decodeLoop payload.length payload.length 1 segments

/-- `decode(P)` (43 R171): the list of events. -/
def decodePayload (payload : List Byte) : List EvEvent := (decodeRun payload).1

/-- `receive(R)` (43 R190) for a buffer of `nMax` bytes; `none` on the empty sequence. -/
def receive (nMax : Nat) (raw : List Byte) : Option (List EvEvent) :=
  match validateFrame raw with
  | none => none
  | some .checksumMismatch => some [.finish .checksumMismatch 0 0]
  | some (.ok payload) =>
    if raw.length ≤ nMax then some (decodePayload payload) else some [.finish .frameOverflow 0 0]

/-! ### Fetch at the cursor -/

/-- The tag byte, then the bytes the tag's rule reads after its bound check: six for a sensor tag, two for an enable-ack,
none when fewer are left or the tag is undefined (43 R175 to R181; 20 R55). -/
def segmentBytes (s : State) : Except Fault (List Byte) :=
  match memRead s s.dCur 1 with
  | .error f => .error f
  | .ok tag =>
    let need := if tag = [2] ∨ tag = [3] ∨ tag = [4] then 6 else if tag = [1] then 2 else 0
    if s.dLen - (s.dCur + 1) < need then .ok tag
    else
      match memRead s (s.dCur + 1) need with
      | .error f => .error f
      | .ok bs => .ok (tag ++ bs)

/-! ### Meanings -/

/-- One pass over a sensor segment (43 R176, R177, R188). -/
def State.sensorSegment (s : State) (kind : ReadingKind) : Option Triple → State
  | some v => { s.emit [.ev (readingOf kind v)] with dCur := s.dCur + 7 }
  | none => s.raise .truncatedSegment kind.tag s.dCur

/-- One pass over an enable-ack (43 R180, R181): a stride of 6 after the tag, clamped to the end of the payload. -/
def State.ackSegment (s : State) : Option AckBytes → State
  | some a => { s.emit [.ev (.ack a.sid a.flag)] with dCur := min (s.dCur + 7) s.dLen }
  | none => s.raise .truncatedSegment 0x01 s.dCur

/-- The end of the payload (43 R183). -/
def State.decodeEnd (s : State) : State := s.raise .ok 0 0

/-- The whole of DECODE (43 R171, R188). -/
def State.decodeWhole (s : State) (payload : List Byte) : State :=
  { s.emit ((decodeRun payload).1.map OutEvent.ev) with
    dLen := payload.length, dCur := (decodeRun payload).2, phase := .idle }

/-- DECODE (43 R171). -/
def execDecode (payload : List Byte) (s : State) : Host.Outcome State Fault Refusal :=
  whenDecoding s (s.decodeWhole payload)

/-- SEG_ENABLE_ACK (43 R180, R181). -/
def execSegEnableAck (ack : Option AckBytes) (s : State) : Host.Outcome State Fault Refusal :=
  whenDecoding s (s.ackSegment ack)

/-- SEG_ACC (43 R184). -/
def execSegAcc (axes : Option Triple) (s : State) : Host.Outcome State Fault Refusal :=
  whenDecoding s (s.sensorSegment .acc axes)

/-- SEG_MAG (43 R185). -/
def execSegMag (axes : Option Triple) (s : State) : Host.Outcome State Fault Refusal :=
  whenDecoding s (s.sensorSegment .mag axes)

/-- SEG_GYRO (43 R187). -/
def execSegGyro (axes : Option Triple) (s : State) : Host.Outcome State Fault Refusal :=
  whenDecoding s (s.sensorSegment .gyro axes)

/-- An undefined tag (43 R182): END, and the cursor is not advanced. -/
def execSegUnknown (tag : Byte) (s : State) : Host.Outcome State Fault Refusal :=
  whenDecoding s (s.raise .unknownSegmentType tag s.dCur)

end Sys2Proof.Machine
end

