-- ==== Sys2Proof/Machine/Framer.lean ====
section
/-! DEFINITION. command_framer (spec/41_command_framer.md): the four commands as whole operations (R125 to R128), and the
byte-serial realisation (R134 to R136). -/

namespace Sys2Proof.Machine

open Sys2Proof

/-! ### The commands as whole operations -/

/-- The TX events of a frame: `tx_last` on the checksum byte only (10 R34). -/
def frameEvents (body : List Byte) : List OutEvent :=
  body.map (OutEvent.tx · false) ++ [.tx (outboundChecksum body) true]

/-- One whole command (41 R137): the registers as R134 to R136 leave them, the frame on TX, then CST. -/
def State.sendCommand (s : State) (op : BitVec 2) (sid : Byte) (val : BitVec 32) (coerced : Bool) (body : List Byte) :
    State :=
  { s.emit (frameEvents body ++ [.cst coerced]) with
    fOp := op, fSid := sid, fVal := val, fCoerced := coerced
    fLen := BitVec.ofNat 4 body.length, fIdx := BitVec.ofNat 4 body.length
    mode := true, acc := xorFold body, phase := .idle }

/-- DISABLE (41 R125): `cmd_arg` is ignored and the sensor id is not checked (41 R131, log 14). -/
def execDisable (sid : Byte) (_arg : Arg) (s : State) : Host.Outcome State Fault Refusal :=
  whenIdle s (s.sendCommand 0 sid 0 false (onOffBody sid 0x00))

/-- ENABLE (41 R126). -/
def execEnable (sid : Byte) (_arg : Arg) (s : State) : Host.Outcome State Fault Refusal :=
  whenIdle s (s.sendCommand 1 sid 0 false (onOffBody sid 0x01))

/-- SET_ACCEL_RANGE (41 R127): the frame does not depend on `cmd_sid`, which F_SID still latches (41 R134). -/
def execSetAccelRange (sid : Byte) (arg : Arg) (s : State) : Host.Outcome State Fault Refusal :=
  whenIdle s (s.sendCommand 2 sid (rangeValue arg) (rangeCoerced arg.toInt) (rangeBody (rangeValue arg)))

/-- SET_SAMPLING_RATE (41 R128). -/
def execSetSamplingRate (sid : Byte) (arg : Arg) (s : State) : Host.Outcome State Fault Refusal :=
  whenIdle s (s.sendCommand 3 sid (rateValue arg) (rateCoerced arg.toInt) (rateBody sid (rateValue arg)))

/-! ### The byte-serial realisation -/

/-- F_VAL at acceptance (41 R134). -/
def latchedValue (op : BitVec 2) (arg : Arg) : BitVec 32 :=
  if op = 2 then rangeValue arg else if op = 3 then rateValue arg else 0

/-- F_COERCED at acceptance (41 R134). -/
def latchedCoerced (op : BitVec 2) (arg : Arg) : Bool :=
  if op = 2 then rangeCoerced arg.toInt else if op = 3 then rateCoerced arg.toInt else false

/-- F_LEN at acceptance (41 R134). -/
def bodyLength (op : BitVec 2) : BitVec 4 := if op = 2 then 5 else if op = 3 then 8 else 4

/-- Command accept (41 R134). -/
def State.acceptCommand (s : State) (op : BitVec 2) (sid : Byte) (arg : Arg) : State :=
  { s.startChecksum true with
    fOp := op, fSid := sid, fVal := latchedValue op arg, fCoerced := latchedCoerced op arg
    fLen := bodyLength op, fIdx := 0, phase := .framing }

/-- The table BODY of 41 R135, `none` at its blanks. -/
def bodyByte (op : BitVec 2) (sid : Byte) (val : BitVec 32) (idx : BitVec 4) : Option Byte :=
  if idx = 0 then some 0xFE
  else if idx = 1 then some (if op = 2 then 0x03 else if op = 3 then 0x06 else 0x02)
  else if idx = 2 then some (if op = 2 then 0x80 else sid)
  else if idx = 3 then some (if op = 0 then 0x00 else if op = 1 then 0x01 else if op = 2 then 0x04 else 0x02)
  else if idx = 4 then (if op = 2 ∨ op = 3 then some (val.extractLsb' 0 8) else none)
  else if idx = 5 then (if op = 3 then some (val.extractLsb' 8 8) else none)
  else if idx = 6 then (if op = 3 then some (val.extractLsb' 16 8) else none)
  else if idx = 7 then (if op = 3 then some (val.extractLsb' 24 8) else none)
  else none

/-- One body byte (41 R135). -/
def State.sendBodyByte (s : State) (b : Byte) : State :=
  { (s.emit [.tx b false]).absorb b with fIdx := s.fIdx + 1 }

/-- The checksum byte and completion (41 R136): the result of a CK_READ with MODE = 1, whatever MODE holds. -/
def State.sendChecksumByte (s : State) : State :=
  { s.emit [.tx (s.acc ^^^ outboundConstant) true, .cst s.fCoerced] with phase := .idle }

/-- One step of FRAMING: 41 R135 while F_IDX < F_LEN, 41 R136 when they are equal. -/
def framerStep (s : State) : Host.Outcome State Fault Refusal :=
  if s.fIdx = s.fLen then .next s.sendChecksumByte
  else if s.fIdx < s.fLen then
    match bodyByte s.fOp s.fSid s.fVal s.fIdx with
    | some b => .next (s.sendBodyByte b)
    | none => .fault .noFramerRule
  else .fault .noFramerRule

end Sys2Proof.Machine
end

