-- ==== Sys2Proof/Machine/Dispatch.lean ====
section
/-! DEFINITION. One arm per constructor of Instr. -/

namespace Sys2Proof.Machine

open Sys2Proof

def exec (i : Instr) (s : State) : Host.Outcome State Fault Refusal :=
  match i with
  | .ckStart mode byte => Sys2Proof.Machine.execCkStart mode byte s
  | .ckAbsorb mode byte => Sys2Proof.Machine.execCkAbsorb mode byte s
  | .ckRead mode byte => Sys2Proof.Machine.execCkRead mode byte s
  | .ckReserved mode byte => Sys2Proof.Machine.execCkReserved mode byte s
  | .cksumOut bytes => Sys2Proof.Machine.execCksumOut bytes s
  | .cksumIn bytes => Sys2Proof.Machine.execCksumIn bytes s
  | .disable sid arg => Sys2Proof.Machine.execDisable sid arg s
  | .enable sid arg => Sys2Proof.Machine.execEnable sid arg s
  | .setAccelRange sid arg => Sys2Proof.Machine.execSetAccelRange sid arg s
  | .setSamplingRate sid arg => Sys2Proof.Machine.execSetSamplingRate sid arg s
  | .validate raw => Sys2Proof.Machine.execValidate raw s
  | .decode payload => Sys2Proof.Machine.execDecode payload s
  | .segEnableAck ack => Sys2Proof.Machine.execSegEnableAck ack s
  | .segAcc axes => Sys2Proof.Machine.execSegAcc axes s
  | .segMag axes => Sys2Proof.Machine.execSegMag axes s
  | .segGyro axes => Sys2Proof.Machine.execSegGyro axes s
  | .segUnknown tag => Sys2Proof.Machine.execSegUnknown tag s

end Sys2Proof.Machine
end

