-- ==== Sys2Proof/Machine/Fetch.lean ====
section
/-! DEFINITION. What the next step is: the reset input, the phase, the offered events and the bytes at the cursor decide
(10 R27, 20 R60, 43 R188, 70 R261). And where a coded instruction is placed so that the next step takes it. -/

namespace Sys2Proof.Machine

open Sys2Proof

/-- What one step does. -/
inductive Action where
  /-- `rst` is asserted (70 R261). -/
  | hold
  /-- No offered event can be accepted in this phase: the block waits (20 R60, log 5). -/
  | wait
  /-- Execute an instruction, leaving these events offered. -/
  | run (i : Instr) (rest : List PortEvent)
  /-- Accept a command (41 R134), one event. -/
  | accept (op : BitVec 2) (sid : Byte) (arg : Arg) (rest : List PortEvent)
  /-- Accept an RX byte (42 R156 to R160), one event. -/
  | receive (b : Byte) (last : Bool) (rest : List PortEvent)
  /-- Emit the next byte of the frame being built (41 R135, R136). -/
  | frame
  /-- The cursor has reached the end of the payload (43 R183). -/
  | finish
  /-- A read of the frame buffer failed. -/
  | stop (f : Fault)
  deriving DecidableEq, Repr

/-- An offered RX byte, if any, else nothing to do. -/
def rxAction (offered : List PortEvent) : Action :=
  match takeRx offered with
  | some (b, last, rest) => .receive b last rest
  | none => .wait

/-- IDLE accepts the oldest offered event of any channel (20 R60, log 4), alone or as the whole operation it begins. -/
def idleAction (s : State) : Action :=
  match s.cfg.grain with
  | .event =>
    match s.offered with
    | [] => .wait
    | .ck op mode byte :: rest => .run (decodeCk op mode byte) rest
    | .cmd op sid arg :: rest => .accept op sid arg rest
    | .rx b last :: rest => .receive b last rest
  | .operation =>
    match decodeOperation s.offered with
    | .ok (i, rest) => .run i rest
    | .error _ => rxAction s.offered

/-- One pass of the decoder (43 R188). -/
def passAction (s : State) : Action :=
  if s.dLen ≤ s.dCur then .finish
  else
    match segmentBytes s with
    | .error f => .stop f
    | .ok bs =>
      match decodeSegment bs with
      | .ok i => .run i s.offered
      | .error _ => .finish

/-- DECODING: one pass, or, at the start of a payload with whole operations, all of DECODE (43 R188). -/
def decodeAction (s : State) : Action :=
  if s.cfg.grain = .operation ∧ s.dCur = min 1 s.dLen then
    match memRead s 0 s.dLen with
    | .error f => .stop f
    | .ok payload => .run (.decode payload) s.offered
  else passAction s

def nextAction (s : State) : Action :=
  if s.rst then .hold
  else
    match s.phase with
    | .idle => idleAction s
    | .framing => .frame
    | .receiving => rxAction s.offered
    | .decoding => decodeAction s

/-! ### Placing a coded instruction -/

/-- Write a run of bytes. -/
def storeBytes (m : Memory) (addr : Nat) : List Byte → Memory
  | [] => m
  | b :: bs => storeBytes (fbSet m addr b) (addr + 1) bs

/-- A lone CK event is one event; any other run of events is one operation. -/
def grainOf : List PortEvent → Grain
  | [.ck _ _ _] => .event
  | _ => .operation

/-- Offer the events in IDLE, or put the payload in the frame buffer in DECODING (a segment after a length byte 0, the
cursor on its tag), so that the next step takes exactly this instruction. -/
def State.placeCode (s : State) : Code → State
  | .events es =>
    { s with rst := false, phase := .idle, cfg := { s.cfg with grain := grainOf es }, offered := es ++ s.offered }
  | .segment bs =>
    { s with
      rst := false, phase := .decoding, cfg := { s.cfg with grain := .event }
      fb := storeBytes s.fb 0 (0 :: bs), dLen := bs.length + 1, dCur := 1 }
  | .payload bs =>
    { s with
      rst := false, phase := .decoding, cfg := { s.cfg with grain := .operation }
      fb := storeBytes s.fb 0 bs, dLen := bs.length, dCur := min 1 bs.length }

end Sys2Proof.Machine
end

