-- ==== Sys2Proof/Machine/Perform.lean ====
section
/-! DEFINITION. Carrying out the next step. -/

namespace Sys2Proof.Machine

open Sys2Proof

def perform (s : State) : Action → Host.Outcome State Fault Refusal
  | .hold => .next s.holdReset
  | .wait => .next s
  | .run i rest => exec i { s with offered := rest }
  | .accept op sid arg rest => .next (State.acceptCommand { s with offered := rest } op sid arg)
  | .receive b last rest => .next (State.rxEvent { s with offered := rest } b last)
  | .frame => framerStep s
  | .finish => .next s.decodeEnd
  | .stop f => .fault f

end Sys2Proof.Machine
end

