-- ==== Sys2Proof/Machine/Step.lean ====
section
/-! DEFINITION. One step of the machine, and the placing of a table word where the next step fetches. -/

namespace Sys2Proof.Machine

open Sys2Proof

/-- One step: one port event, or one operation (`Config.grain`). -/
def step (s : State) : Host.Outcome State Fault Refusal := perform s (nextAction s)

/-- `s` with the instruction of a table word where the next step takes it (log 10, 11). -/
def State.withFetchWord (s : State) (nbits w : Nat) : State :=
  match tableCode nbits w with
  | some c => s.placeCode c
  | none => s

end Sys2Proof.Machine
end

