-- ==== Sys2Proof/Machine/Sequencer.lean ====
section
/-! DEFINITION. The host's side that the spec gives: the Configuration Sequencer (spec/44_config_sequencer.md) as a list
of commands and as a session that drives the block, and the sink's choice of readings (92 D15). The session is a machine of
its own beside `step` (log 21). -/

namespace Sys2Proof.Machine

open Sys2Proof

/-- The SensorId byte (30 R79). -/
def SensorId.byte : SensorId → Byte
  | .acc => 0x80
  | .mag => 0x81
  | .gyro => 0x82
  | .env => 0x83
  | .light => 0x84

/-! ### The pseudo-operations (30 R92) -/

/-- DISABLE_ALL, in the source's order (44 R202, decision D20). The ignored `cmd_arg` is 0: DESIGN CHOICE, log 31. -/
def disableAll : List Instr :=
  [.disable 0x80 0, .disable 0x81 0, .disable 0x82 0, .disable 0x83 0, .disable 0x84 0]

/-- SETUP_SENSOR sid, r (44 R204). The ignored `cmd_arg` of ENABLE is 0: DESIGN CHOICE, log 31. -/
def setupSensor (sid : Byte) (rate : Arg) : List Instr := [.setSamplingRate sid rate, .enable sid 0]

/-- BRING_UP range, r (30 R92). What the host puts in the ignored port fields, which 30 R91 writes '-', is the model's
choice: `cmd_arg` 0 with DISABLE and ENABLE, `cmd_sid` 0 with SET_ACCEL_RANGE (F_SID latches it, 41 R134). DESIGN CHOICE,
log 31. -/
def bringUp (range rate : Arg) : List Instr :=
  disableAll ++ [.setAccelRange 0 range] ++ setupSensor 0x80 rate ++ setupSensor 0x81 rate ++ setupSensor 0x82 rate

/-! ### The sequencer's states (44 R200) -/

/-- The commands a state issues (44 R202 to R204); ignored port fields as in `bringUp` (log 31). -/
def seqCommands (range rate : Arg) : SeqState → List Instr
  | .idle => []
  | .disableAll => disableAll
  | .setAccelRange => [.setAccelRange 0 range]
  | .setSampling sensor => [.setSamplingRate (SensorId.byte sensor) rate]
  | .enableSensor sensor => [.enable (SensorId.byte sensor) 0]
  | .ready => []

/-- The state after one whose commands are done. Ready, and the states of env and light, which the path never enters
(44 R205), stay. -/
def seqNext : SeqState → SeqState
  | .idle => .disableAll
  | .disableAll => .setAccelRange
  | .setAccelRange => .setSampling .acc
  | .setSampling sensor => .enableSensor sensor
  | .enableSensor .acc => .setSampling .mag
  | .enableSensor .mag => .setSampling .gyro
  | .enableSensor .gyro => .ready
  | .enableSensor .env => .enableSensor .env
  | .enableSensor .light => .enableSensor .light
  | .ready => .ready

/-- The states from one on, `n` of them. -/
def seqPath : Nat → SeqState → List SeqState
  | 0, _ => []
  | n + 1, q => q :: seqPath n (seqNext q)

/-! ### A session: the host's program and the block -/

structure Session where
  block : State
  /-- The sequencer's state. -/
  seq : SeqState
  /-- The commands of this state that are still to be issued. -/
  todo : List Instr
  /-- The commands issued so far, oldest first. -/
  issued : List Instr
  range : Arg
  rate : Arg
  /-- A command has been issued and its CST has not come (44 R208). -/
  awaitCst : Bool
  /-- A frame has been emitted and the pacing delay after it has not passed (44 R207). -/
  awaitPace : Bool
  /-- A write failed: no further command is issued (44 R209). -/
  aborted : Bool
  deriving DecidableEq, Repr

/-- What may happen next in a session. -/
inductive SessionEvent where
  /-- The external configuration gives the range and the rate (44 R201). -/
  | startup (range rate : Arg)
  /-- The host goes on: it issues its next command or enters its next state. -/
  | advance
  /-- The block makes one step. -/
  | blockStep
  /-- The transport offers the block one byte of a raw frame, at any time of the session: an enable-ack during bring-up as
  well as a frame in Ready (10 R35, 70 R267). Log 34. -/
  | transportByte (byte : Byte) (last : Bool)
  /-- The read loop begins a cycle: the transport presents one raw frame (44 R210, 70 R265). Log 34. -/
  | readFrame (raw : List Byte)
  /-- T_PACE has passed since the last frame was transmitted (70 R266). -/
  | paceElapsed
  /-- A transport write failed (44 R209, 60 R228). -/
  | writeFailure
  deriving DecidableEq, Repr

/-- The events that issue a command on the block's port. -/
def commandEvents (i : Instr) : List PortEvent :=
  match encode i with
  | .events es => es
  | .segment _ => []
  | .payload _ => []

def OutEvent.isCst : OutEvent → Bool
  | .cst _ => true
  | .ckResult _ => false
  | .tx _ _ => false
  | .ev _ => false

/-- The session at its start: the block after reset, no command issued. -/
def Session.initial : Session where
  block := State.reset
  seq := .idle
  todo := []
  issued := []
  range := 0
  rate := 0
  awaitCst := false
  awaitPace := false
  aborted := false

/-- Offer input events to the session's block. -/
def Session.offer (h : Session) (es : List PortEvent) : Session :=
  { h with block := { h.block with offered := h.block.offered ++ es } }

/-- The host may issue a command or move on: nothing failed, the last command's CST has come and its delay has passed
(44 R208, R209). That no enable-ack of the device is awaited or checked, which the source does not say either way (44 R210),
is the model's choice: DESIGN CHOICE, log 33. That the host may also offer a command while a frame is being received or
decoded, and the block then accepts it when it is back in IDLE, is the model's choice beside 70 R267: DESIGN CHOICE,
log 36. -/
def Session.mayAdvance (h : Session) : Bool :=
  !h.aborted && !h.awaitCst && !h.awaitPace && (h.seq != .idle) && (h.seq != .ready)

def Session.advance (h : Session) : Session :=
  if h.mayAdvance then
    match h.todo with
    | i :: todo =>
      { h.offer (commandEvents i) with todo := todo, issued := h.issued ++ [i], awaitCst := true }
    | [] => { h with seq := seqNext h.seq, todo := seqCommands h.range h.rate (seqNext h.seq) }
  else h

/-- The read loop may begin a cycle: bring-up is complete (44 R210), and the block is idle with nothing offered, the END of
the frame before having come (70 R265, "with no overlap between cycles"). -/
def Session.mayReadFrame (h : Session) : Bool :=
  !h.aborted && (h.seq == .ready) && (h.block.phase == .idle) && h.block.offered.isEmpty

/-- What one happening does. After a failed write (44 R209) no further command is issued and the session says no more: that
commands already sent are not undone, of which the source says nothing (91 N12), is the model's choice: DESIGN CHOICE,
log 32. -/
def Session.step (h : Session) : SessionEvent → Host.Outcome Session Fault Refusal
  | .startup range rate =>
    if h.seq = .idle ∧ h.aborted = false then
      .next { h with seq := .disableAll, todo := disableAll, range := range, rate := rate }
    else .next h
  | .advance => .next h.advance
  | .blockStep =>
    match Sys2Proof.Machine.step h.block with
    | .next b =>
      let done := (b.emitted.drop h.block.emitted.length).any OutEvent.isCst
      .next { h with block := b, awaitCst := h.awaitCst && !done, awaitPace := h.awaitPace || done }
    | .fault f => .fault f
    | .refused r => .refused r
  | .transportByte byte last => .next (h.offer [.rx byte last])
  | .readFrame raw => .next (if h.mayReadFrame then h.offer (rxEvents raw) else h)
  | .paceElapsed => .next { h with awaitPace := false }
  | .writeFailure => .next { h with seq := Config.abortState, todo := [], aborted := true }

/-- A session after a list of happenings, stopping where the block stops. -/
def Session.run : List SessionEvent → Session → Host.Outcome Session Fault Refusal
  | [], h => .next h
  | e :: es, h =>
    match h.step e with
    | .next h' => Session.run es h'
    | .fault f => .fault f
    | .refused r => .refused r

/-! ### The sink -/

/-- The readings of a frame that are forwarded: all of them (60 R223), but those of a frame that ended with
UNKNOWN_SEGMENT_TYPE only under the host's policy (60 R224). -/
def forwarded (onUnknown : Bool) (events : List EvEvent) : List EvEvent :=
  let unknown := events.any fun e => match e with
    | .finish status _ _ => status == .unknownSegmentType
    | .reading _ _ _ _ _ => false
    | .ack _ _ => false
  if unknown && !onUnknown then []
  else events.filter fun e => match e with
    | .reading _ _ _ _ _ => true
    | .ack _ _ => false
    | .finish _ _ _ => false

/-- The forwarding under the machine's open policy (log 22). -/
def forwardedByHost (events : List EvEvent) : List EvEvent := forwarded Config.forwardOnUnknown events

end Sys2Proof.Machine
end

