-- ==== Sys2Proof/Safety.lean ====
section
/-! DEFINITION. The terms in which claims are stated: runs, what an operation leaves unchanged, the decoder's algorithm as
the spec's pseudocode has it, the invariant of the machine, and what a safe outcome is. -/

namespace Sys2Proof.Machine

open Sys2Proof

/-- `k` steps, stopping at the first fault or refusal. -/
def steps : Nat → State → Host.Outcome State Fault Refusal
  | 0, s => .next s
  | k + 1, s =>
    match step s with
    | .next t => steps k t
    | .fault f => .fault f
    | .refused r => .refused r

/-! ### What is left unchanged -/

/-- MODE and ACC. -/
structure SameChecksum (s t : State) : Prop where
  mode : t.mode = s.mode
  acc : t.acc = s.acc

/-- F_OP, F_SID, F_VAL, F_COERCED, F_LEN, F_IDX. -/
structure SameFramer (s t : State) : Prop where
  fOp : t.fOp = s.fOp
  fSid : t.fSid = s.fSid
  fVal : t.fVal = s.fVal
  fCoerced : t.fCoerced = s.fCoerced
  fLen : t.fLen = s.fLen
  fIdx : t.fIdx = s.fIdx

/-- V_LEN, V_OVF. -/
structure SameValidator (s t : State) : Prop where
  vLen : t.vLen = s.vLen
  vOvf : t.vOvf = s.vOvf

/-- D_LEN, D_CUR. -/
structure SameDecoder (s t : State) : Prop where
  dLen : t.dLen = s.dLen
  dCur : t.dCur = s.dCur

/-- Every byte of the frame buffer, as `fbGet` reads it. -/
def SameMemory (s t : State) : Prop := ∀ a, fbGet t.fb a = fbGet s.fb a

/-- The parameters, the reset input and the offered events. -/
structure SameOutside (s t : State) : Prop where
  cfg : t.cfg = s.cfg
  rst : t.rst = s.rst
  offered : t.offered = s.offered

/-- The events transferred are kept, and these are the new ones. -/
def Emits (s t : State) (es : List OutEvent) : Prop := t.emitted = s.emitted ++ es

/-- The operations of channels CK and CMD, accepted in IDLE only (20 R60). -/
def needsIdle : Instr → Bool
  | .ckStart _ _ => true
  | .ckAbsorb _ _ => true
  | .ckRead _ _ => true
  | .ckReserved _ _ => true
  | .cksumOut _ => true
  | .cksumIn _ => true
  | .disable _ _ => true
  | .enable _ _ => true
  | .setAccelRange _ _ => true
  | .setSamplingRate _ _ => true
  | .validate _ => false
  | .decode _ => false
  | .segEnableAck _ => false
  | .segAcc _ => false
  | .segMag _ => false
  | .segGyro _ => false
  | .segUnknown _ => false

/-- DECODE and the segments, which happen in DECODING only (43 R188). -/
def needsDecoding : Instr → Bool
  | .ckStart _ _ => false
  | .ckAbsorb _ _ => false
  | .ckRead _ _ => false
  | .ckReserved _ _ => false
  | .cksumOut _ => false
  | .cksumIn _ => false
  | .disable _ _ => false
  | .enable _ _ => false
  | .setAccelRange _ _ => false
  | .setSamplingRate _ _ => false
  | .validate _ => false
  | .decode _ => true
  | .segEnableAck _ => true
  | .segAcc _ => true
  | .segMag _ => true
  | .segGyro _ => true
  | .segUnknown _ => true

def isRx : PortEvent → Bool
  | .ck _ _ _ => false
  | .cmd _ _ _ => false
  | .rx _ _ => true

/-- A machine that is out of reset, waits in IDLE and takes one port event a step. -/
structure ReadyForEvents (s : State) : Prop where
  rst : s.rst = false
  phase : s.phase = .idle
  grain : s.cfg.grain = .event

/-- A machine that is out of reset and decodes, one pass a step. -/
structure DecodingByPasses (s : State) : Prop where
  rst : s.rst = false
  phase : s.phase = .decoding
  grain : s.cfg.grain = .event

/-! ### The decoder's algorithm (43 R171), over indexes of the payload -/

/-- From this cursor the loop of 43 R171 emits these events. -/
inductive DecodesFrom (P : List Byte) : Nat → List EvEvent → Prop
  /-- R183: no byte remains. -/
  | atEnd (cur : Nat) : P.length ≤ cur → DecodesFrom P cur [.finish .ok 0 0]
  /-- R176, R178, R179: a sensor tag and six bytes. -/
  | sensor (cur : Nat) (kind : ReadingKind) (lx hx ly hy lz hz : Byte) (out : List EvEvent) :
      P[cur]? = some kind.tag →
      P[cur + 1]? = some lx → P[cur + 2]? = some hx →
      P[cur + 3]? = some ly → P[cur + 4]? = some hy →
      P[cur + 5]? = some lz → P[cur + 6]? = some hz →
      DecodesFrom P (cur + 7) out →
      DecodesFrom P cur
        (.reading kind (BitVec.ofInt 16 (signed16 (le16 lx hx))) (BitVec.ofInt 16 (signed16 (le16 ly hy)))
          (BitVec.ofInt 16 (signed16 (le16 lz hz))) (kind == .acc) :: out)
  /-- R177: a sensor tag and fewer than six bytes. -/
  | sensorCut (cur : Nat) (kind : ReadingKind) :
      P[cur]? = some kind.tag → P.length - (cur + 1) < 6 →
      DecodesFrom P cur [.finish .truncatedSegment kind.tag cur]
  /-- R180, R181 b: an enable-ack tag and at least two bytes. -/
  | ack (cur : Nat) (sid flag : Byte) (out : List EvEvent) :
      P[cur]? = some 1 → P[cur + 1]? = some sid → P[cur + 2]? = some flag →
      DecodesFrom P (min (cur + 1 + 6) P.length) out →
      DecodesFrom P cur (.ack sid flag :: out)
  /-- R181 a: an enable-ack tag and fewer than two bytes. -/
  | ackCut (cur : Nat) :
      P[cur]? = some 1 → P.length - (cur + 1) < 2 →
      DecodesFrom P cur [.finish .truncatedSegment 1 cur]
  /-- R182: any other tag. -/
  | unknown (cur : Nat) (t : Byte) :
      P[cur]? = some t → t ≠ 1 → t ≠ 2 → t ≠ 3 → t ≠ 4 →
      DecodesFrom P cur [.finish .unknownSegmentType t cur]

/-! ### The invariant -/

/-- The body of the command frame that F_OP, F_SID and F_VAL describe (30 R71 to R73). -/
def latchedBody (op : BitVec 2) (sid : Byte) (val : BitVec 32) : List Byte :=
  if op = 0 then onOffBody sid 0x00
  else if op = 1 then onOffBody sid 0x01
  else if op = 2 then rangeBody val
  else rateBody sid val

/-- A range the framer may emit (30 R80). -/
def legalRange (v : BitVec 32) : Prop := v = 2 ∨ v = 4 ∨ v = 6 ∨ v = 8 ∨ v = 16

/-- A rate the framer may emit (30 R81). -/
def legalRate (v : BitVec 32) : Prop := 500 ≤ v.toNat ∧ v.toNat ≤ 1000000

/-- FRAMING (41 R134 to R136): outbound mode, the length of the latched command, ACC the fold of the bytes emitted. -/
structure FramingInv (s : State) : Prop where
  mode : s.mode = true
  length : s.fLen = bodyLength s.fOp
  index : s.fIdx ≤ s.fLen
  fold : s.acc = xorFold ((latchedBody s.fOp s.fSid s.fVal).take s.fIdx.toNat)

/-- RECEIVING (42 R156, R157): inbound mode, the first V_LEN cells written, an overflow only in a full buffer, ACC the fold
of the cells when nothing overflowed. -/
structure ReceivingInv (s : State) : Prop where
  mode : s.mode = false
  some : 1 ≤ s.vLen
  full : s.vOvf = true → s.vLen = s.cfg.nMax
  cells : ∃ bs, readCells s.fb 0 s.vLen = .ok bs ∧ (s.vOvf = false → s.acc = xorFold bs)

/-- DECODING (42 R160, 43 R189): inbound mode, a frame that fitted, the payload one byte shorter than it, the cursor past the
length byte, and the buffered frame folds to zero (42 R152). -/
structure DecodingInv (s : State) : Prop where
  mode : s.mode = false
  fits : s.vOvf = false
  length : s.dLen + 1 = s.vLen
  started : 1 ≤ s.dLen → 1 ≤ s.dCur
  verdict : s.acc = 0
  cells : ∃ bs, readCells s.fb 0 s.vLen = .ok bs ∧ xorFold bs = 0

/-- The invariant: the parameters are legal (00 R6), FB is canonical and inside its capacity (20 R50), the lengths and the
cursor are bounded (43 R189), a latched argument is a coerced one (30 R80, R81), and the phase's own part holds. -/
structure State.Inv (s : State) : Prop where
  capacity : 9 ≤ s.cfg.nMax
  canonical : Memory.wf s.fb
  inside : ∀ c ∈ s.fb, c.1 < s.cfg.nMax
  vLen_le : s.vLen ≤ s.cfg.nMax
  dLen_lt : s.dLen + 1 ≤ s.cfg.nMax
  dCur_le : s.dCur ≤ s.dLen
  range : s.fOp = 2 → legalRange s.fVal
  rate : s.fOp = 3 → legalRate s.fVal
  framing : s.phase = .framing → FramingInv s
  receiving : s.phase = .receiving → ReceivingInv s
  decoding : s.phase = .decoding → DecodingInv s

/-- A safe outcome: the machine goes on, in a state that meets the invariant. -/
def SafeOutcome (o : Host.Outcome State Fault Refusal) : Prop := ∃ t, o = .next t ∧ t.Inv

end Sys2Proof.Machine
end

