-- ==== Sys2Proof/WellFormed.lean ====
section
/-! DEFINITION. Well-formed instructions: what an encoding can present. -/

namespace Sys2Proof

/-- The tags the source defines (43 R175): 1 enable-ack, 2 acc, 3 mag, 4 gyro. -/
def definedTag (t : Byte) : Bool := t == 1 || t == 2 || t == 3 || t == 4

/-- A raw frame has at least one byte (42 R151, R153 b); SEG_UNKNOWN stands for the undefined tags only (43 R182).
Nothing else is excluded: a sensor id outside the enumeration is presented and emitted too (41 R131, log 14). -/
def Instr.wf : Instr → Bool
  | .ckStart _ _ => true
  | .ckAbsorb _ _ => true
  | .ckRead _ _ => true
  | .ckReserved _ _ => true
  | .cksumOut _ => true
  | .cksumIn _ => true
  | .disable _ _ => true
  | .enable _ _ => true
  | .setAccelRange _ _ => true
  | .setSamplingRate _ _ => true
  | .validate raw => !raw.isEmpty
  | .decode _ => true
  | .segEnableAck _ => true
  | .segAcc _ => true
  | .segMag _ => true
  | .segGyro _ => true
  | .segUnknown t => !definedTag t

end Sys2Proof
end

