-- ==== Sys2Proof/Certificates/Slice0/Obligations.lean ====
section
/-! DEFINITION. The statements about the model, from the numbered rules of the spec. -/

open Sys2Proof Sys2Proof.Machine

/-! ### checksum_gen -/

/-- 40 R103. CK_START completes in IDLE with these two writes and nothing else, in the middle of a sequence too; a command
and a frame start with the same two writes. -/
def Obligations.CkStartLoadsModeClearsAcc : Prop :=
  (∀ (m : Bool) (b : Byte) (s : State), s.phase = .idle →
    decodeCk 0 m b = .ckStart m b ∧ exec (.ckStart m b) s = .next { s with mode := m, acc := 0x00 }) ∧
  (∀ (s : State) (op : BitVec 2) (sid : Byte) (arg : Arg),
    (s.acceptCommand op sid arg).mode = true ∧ (s.acceptCommand op sid arg).acc = 0x00) ∧
  (∀ s : State, s.frameStart.mode = false ∧ s.frameStart.acc = 0x00)

/-- 40 R104, with its corner cases: a zero byte changes nothing, the same byte twice restores the state. -/
def Obligations.CkAbsorbFoldsOneByte : Prop :=
  ∀ (m : Bool) (b : Byte) (s : State), s.phase = .idle →
    decodeCk 1 m b = .ckAbsorb m b ∧
    exec (.ckAbsorb m b) s = .next { s with acc := s.acc ^^^ b } ∧
    (b = 0x00 → exec (.ckAbsorb m b) s = .next s) ∧
    (∀ t, exec (.ckAbsorb m b) s = .next t → exec (.ckAbsorb m b) t = .next s)

/-- 40 R105. CK_READ gives ACC, exclusive-or 0xFE when MODE is 1; no register changes; a byte absorbed after it is covered
by the next read. -/
def Obligations.CkReadAppliesConstantAtRead : Prop :=
  ∀ (m : Bool) (b : Byte) (s : State), s.phase = .idle →
    decodeCk 2 m b = .ckRead m b ∧
    exec (.ckRead m b) s =
      .next { s with emitted := s.emitted ++ [.ckResult (s.acc ^^^ (if s.mode = true then 0xFE else 0x00))] } ∧
    (∀ t u v m' c, exec (.ckRead m b) s = .next t → exec (.ckAbsorb m' c) t = .next u →
      exec (.ckRead m b) u = .next v → v.emitted = t.emitted ++ [.ckResult (s.acc ^^^ c ^^^ (if s.mode = true then 0xFE else 0x00))])

/-- 40 R106. The reserved `ck_op` is accepted, changes nothing and returns nothing. -/
def Obligations.CkReservedChangesNothing : Prop :=
  (∀ (m : Bool) (b : Byte) (s : State), s.phase = .idle → exec (.ckReserved m b) s = .next s) ∧
  (∀ (m : Bool) (b : Byte) (s : State) (rest : List PortEvent), ReadyForEvents s → s.offered = .ck 3 m b :: rest →
    step s = .next { s with offered := rest })

/-- 40 R109, with its corner cases and its port form: the events one by one, whatever their ignored fields hold, reach
the state of the whole operation. -/
def Obligations.CksumOutIsFoldWithConstant : Prop :=
  (∀ (bytes : List Byte) (s : State), s.phase = .idle →
    exec (.cksumOut bytes) s =
      .next { s with
        mode := true, acc := xorFold bytes
        emitted := s.emitted ++ [.ckResult (xorFold bytes ^^^ 0xFE)] }) ∧
  (∀ (b0 : Byte) (absorbs : List (Bool × Byte)) (mr : Bool) (br : Byte) (rest : List PortEvent) (s : State),
    ReadyForEvents s →
    s.offered = .ck 0 true b0 :: (absorbs.map (fun p => PortEvent.ck 1 p.1 p.2) ++ .ck 2 mr br :: rest) →
    steps (absorbs.length + 2) s = exec (.cksumOut (absorbs.map Prod.snd)) { s with offered := rest }) ∧
  (∀ bytes : List Byte, outboundChecksum bytes = xorFold bytes ^^^ 0xFE ∧
    outboundChecksum bytes ≠ inboundChecksum bytes) ∧
  outboundChecksum [] = 0xFE ∧ outboundChecksum [0xFE] = 0x00

/-- 40 R110, with its corner cases and its port form, whatever the ignored fields of the events hold. -/
def Obligations.CksumInIsPlainFold : Prop :=
  (∀ (bytes : List Byte) (s : State), s.phase = .idle →
    exec (.cksumIn bytes) s =
      .next { s with
        mode := false, acc := xorFold bytes
        emitted := s.emitted ++ [.ckResult (xorFold bytes)] }) ∧
  (∀ (b0 : Byte) (absorbs : List (Bool × Byte)) (mr : Bool) (br : Byte) (rest : List PortEvent) (s : State),
    ReadyForEvents s →
    s.offered = .ck 0 false b0 :: (absorbs.map (fun p => PortEvent.ck 1 p.1 p.2) ++ .ck 2 mr br :: rest) →
    steps (absorbs.length + 2) s = exec (.cksumIn (absorbs.map Prod.snd)) { s with offered := rest }) ∧
  (∀ bytes : List Byte, inboundChecksum bytes = xorFold bytes) ∧
  inboundChecksum [] = 0x00 ∧ (∀ b : Byte, inboundChecksum [b] = b) ∧
  (∀ bytes : List Byte, inboundChecksum (bytes ++ [inboundChecksum bytes]) = 0x00)

/-- 40 R107, the spec's own inference from R101, R103, R104, R105: CK_START(m), any number of CK_ABSORB and a CK_READ,
event by event, whatever their ignored fields hold. -/
def Obligations.CkSessionReadsFold : Prop :=
  ∀ (m : Bool) (b0 : Byte) (absorbs : List (Bool × Byte)) (mr : Bool) (br : Byte) (rest : List PortEvent) (s : State),
    ReadyForEvents s →
    s.offered = .ck 0 m b0 :: (absorbs.map (fun p => PortEvent.ck 1 p.1 p.2) ++ .ck 2 mr br :: rest) →
    ∃ t, steps (absorbs.length + 2) s = .next t ∧ t.mode = m ∧ t.acc = xorFold (absorbs.map Prod.snd) ∧
      t.phase = .idle ∧ t.offered = rest ∧
      Emits s t [.ckResult (if m = true then xorFold (absorbs.map Prod.snd) ^^^ 0xFE else xorFold (absorbs.map Prod.snd))]

/-- 40 R108, the spec's own inference from 41 R135 and 42 R157. What a CK_ABSORB or CK_READ with no CK_START finds:
after reset, after a command, and after a frame received to its last byte (a zero fold is the test of 42 R152, an
inference too); and it acts on that. -/
def Obligations.ChecksumResidue : Prop :=
  (State.reset.acc = 0x00 ∧ State.reset.mode = false) ∧
  (∀ (op : BitVec 2) (sid : Byte) (arg : Arg) (s : State), s.phase = .idle →
    ∃ t, exec (decodeCmd op sid arg) s = .next t ∧ t.phase = .idle ∧ t.mode = true ∧
      t.acc = xorFold (latchedBody op sid t.fVal) ∧
      (∃ es, Emits s t (frameEvents (latchedBody op sid t.fVal) ++ es))) ∧
  (∀ (raw : List Byte) (s : State), s.phase = .idle → raw ≠ [] →
    ∃ t, exec (.validate raw) s = .next t ∧ t.mode = false ∧ t.acc = xorFold raw ∧
      (t.acc = 0x00 ↔ ∃ P, validateFrame raw = some (.ok P))) ∧
  (∀ (m : Bool) (b : Byte) (s : State), s.phase = .idle →
    exec (.ckAbsorb m b) s = .next { s with acc := s.acc ^^^ b } ∧
    exec (.ckRead m b) s = .next { s with emitted := s.emitted ++ [.ckResult (ckResult s.mode s.acc)] })

/-- 40 R101, R102 (its last sentence is the spec's own inference). The fold of a concatenation; it does not depend on
the order; its own fold cancels it. -/
def Obligations.XorFoldLaws : Prop :=
  (∀ s t : List Byte, xorFold (s ++ t) = xorFold s ^^^ xorFold t) ∧
  (∀ s t : List Byte, s.Perm t → xorFold s = xorFold t) ∧
  (∀ s : List Byte, xorFold (s ++ [xorFold s]) = 0x00)

/-- 40 R111, the spec's own inference. The two checksums agree in bit 0, differ in bits 7 to 1 and are never equal; a
command frame without its marker validates, and with its marker does not. -/
def Obligations.ChecksumsDifferInSevenBits : Prop :=
  (∀ s : List Byte, outboundChecksum s = inboundChecksum s ^^^ 0xFE ∧ outboundChecksum s ≠ inboundChecksum s ∧
    (outboundChecksum s).getLsbD 0 = (inboundChecksum s).getLsbD 0 ∧
    ∀ i, 1 ≤ i → i < 8 → (outboundChecksum s).getLsbD i ≠ (inboundChecksum s).getLsbD i) ∧
  (∀ T : List Byte,
    validateFrame (T ++ [outboundChecksum (0xFE :: T)]) = some (.ok T) ∧
    validateFrame (0xFE :: T ++ [outboundChecksum (0xFE :: T)]) = some .checksumMismatch)

/-- 40 R112, the spec's own inference from R102, of both checksums. An error confined to one byte is detected; two
errors in the same bits of two bytes are not, nor is any reordering. -/
def Obligations.ChecksumErrorCoverage : Prop :=
  ∀ f : List Byte → Byte, f = inboundChecksum ∨ f = outboundChecksum →
    (∀ (u v : List Byte) (b c : Byte), b ≠ c → f (u ++ b :: v) ≠ f (u ++ c :: v)) ∧
    (∀ (u v w : List Byte) (b c e : Byte),
      f (u ++ (b ^^^ e) :: (v ++ (c ^^^ e) :: w)) = f (u ++ b :: (v ++ c :: w))) ∧
    (∀ u v : List Byte, u.Perm v → f u = f v)

/-! ### Acceptance -/

/-- The model's choice (log 23) for what 20 R60 says has no step: an operation executed outside the phase that accepts
it leaves the state as it is. -/
def Obligations.OperationsOutsideTheirPhaseDoNothing : Prop :=
  ∀ (i : Instr) (s : State),
    (needsIdle i = true → s.phase ≠ .idle → exec i s = .next s) ∧
    (needsDecoding i = true → s.phase ≠ .decoding → exec i s = .next s) ∧
    (∀ raw, i = .validate raw → raw ≠ [] → s.phase = .framing ∨ s.phase = .decoding → exec i s = .next s)

/-- 20 R60. What a step takes from the offered events in each phase, and the phase after it. That IDLE takes the
oldest event and RECEIVING the oldest RX is the model's choice (log 4), and so is a step that waits (log 5). -/
def Obligations.PhaseDecidesAcceptance : Prop :=
  ∀ s t : State, s.rst = false → step s = .next t →
    (s.phase = .framing ∨ s.phase = .decoding → t.offered = s.offered) ∧
    (s.phase = .receiving → (∀ e ∈ s.offered, isRx e = false) → t = s) ∧
    (∀ u b last v, s.phase = .receiving → s.offered = u ++ .rx b last :: v → (∀ e ∈ u, isRx e = false) →
      t.offered = u ++ v ∧ (last = false → t.phase = .receiving) ∧
        (last = true → t.phase = .idle ∨ t.phase = .decoding)) ∧
    (s.phase = .idle → s.offered = [] → t = s) ∧
    (∀ e rest, s.phase = .idle → s.cfg.grain = .event → s.offered = e :: rest →
      t.offered = rest ∧
      (∀ op m b, e = .ck op m b → t.phase = .idle) ∧
      (∀ op sid arg, e = .cmd op sid arg → t.phase = .framing) ∧
      (∀ b, e = .rx b false → t.phase = .receiving) ∧
      (∀ b, e = .rx b true → t.phase = .idle ∨ t.phase = .decoding))

/-! ### command_framer -/

/-- 41 R121, R122: the valid arguments are kept with flag 0, every other integer is replaced with flag 1. -/
def Obligations.CoercionKeepsValidArguments : Prop :=
  ∀ r : Int,
    ((r = 2 ∨ r = 4 ∨ r = 6 ∨ r = 8 ∨ r = 16) → (coerceRange r : Int) = r ∧ rangeCoerced r = false) ∧
    (¬(r = 2 ∨ r = 4 ∨ r = 6 ∨ r = 8 ∨ r = 16) → coerceRange r = 16 ∧ rangeCoerced r = true) ∧
    (500 ≤ r ∧ r ≤ 1000000 → (coerceRate r : Int) = r ∧ rateCoerced r = false) ∧
    (r < 500 ∨ 1000000 < r → coerceRate r = 100000 ∧ rateCoerced r = true)

/-- 41 R125: the five bytes, the last of them `sid ^ 0x02`, then CST(0); and the registers as 41 R134 to R136 leave
them. The argument has no effect, and every sensor id byte is emitted (41 R131). -/
def Obligations.DisableSendsFrame : Prop :=
  ∀ (sid : Byte) (arg : Arg) (s : State), s.phase = .idle →
    decodeCmd 0 sid arg = .disable sid arg ∧
    exec (.disable sid arg) s =
      .next { s with
        phase := .idle, mode := true, acc := xorFold [0xFE, 0x02, sid, 0x00]
        fOp := 0, fSid := sid, fVal := 0, fCoerced := false, fLen := 4, fIdx := 4
        emitted := s.emitted ++
          [.tx 0xFE false, .tx 0x02 false, .tx sid false, .tx 0x00 false, .tx (sid ^^^ 0x02) true, .cst false] }

/-- 41 R126. -/
def Obligations.EnableSendsFrame : Prop :=
  ∀ (sid : Byte) (arg : Arg) (s : State), s.phase = .idle →
    decodeCmd 1 sid arg = .enable sid arg ∧
    exec (.enable sid arg) s =
      .next { s with
        phase := .idle, mode := true, acc := xorFold [0xFE, 0x02, sid, 0x01]
        fOp := 1, fSid := sid, fVal := 0, fCoerced := false, fLen := 4, fIdx := 4
        emitted := s.emitted ++
          [.tx 0xFE false, .tx 0x02 false, .tx sid false, .tx 0x01 false, .tx (sid ^^^ 0x03) true, .cst false] }

/-- 41 R127: six bytes, one of five coerced ranges in byte 4, the last `g ^ 0x87`; CST is 1 iff the argument is none of 2, 4, 6, 8,
16. The sensor id reaches no byte of the frame. -/
def Obligations.SetAccelRangeSendsFrame : Prop :=
  ∀ (sid : Byte) (arg : Arg) (s : State) (g : Nat), s.phase = .idle → g = coerceRange arg.toInt →
    decodeCmd 2 sid arg = .setAccelRange sid arg ∧
    (g = 2 ∨ g = 4 ∨ g = 6 ∨ g = 8 ∨ g = 16) ∧
    exec (.setAccelRange sid arg) s =
      .next { s with
        phase := .idle, mode := true, acc := xorFold [0xFE, 0x03, 0x80, 0x04, BitVec.ofNat 8 g]
        fOp := 2, fSid := sid, fVal := BitVec.ofNat 32 g
        fCoerced := decide (¬(arg.toInt = 2 ∨ arg.toInt = 4 ∨ arg.toInt = 6 ∨ arg.toInt = 8 ∨ arg.toInt = 16))
        fLen := 5, fIdx := 5
        emitted := s.emitted ++
          [.tx 0xFE false, .tx 0x03 false, .tx 0x80 false, .tx 0x04 false, .tx (BitVec.ofNat 8 g) false,
            .tx (BitVec.ofNat 8 g ^^^ 0x87) true,
            .cst (decide (¬(arg.toInt = 2 ∨ arg.toInt = 4 ∨ arg.toInt = 6 ∨ arg.toInt = 8 ∨ arg.toInt = 16)))] }

/-- 41 R128: nine bytes, the coerced rate little-endian in bytes 4 to 7, byte 7 zero; CST is 1 iff r < 500 or r > 1 000 000. -/
def Obligations.SetSamplingRateSendsFrame : Prop :=
  ∀ (sid : Byte) (arg : Arg) (s : State) (v : Nat) (r0 r1 r2 r3 : Byte), s.phase = .idle →
    v = coerceRate arg.toInt → r0 = BitVec.ofNat 8 v → r1 = BitVec.ofNat 8 (v / 256) →
    r2 = BitVec.ofNat 8 (v / 65536) → r3 = BitVec.ofNat 8 (v / 16777216) →
    decodeCmd 3 sid arg = .setSamplingRate sid arg ∧
    r3 = 0x00 ∧
    exec (.setSamplingRate sid arg) s =
      .next { s with
        phase := .idle, mode := true, acc := xorFold [0xFE, 0x06, sid, 0x02, r0, r1, r2, r3]
        fOp := 3, fSid := sid, fVal := BitVec.ofNat 32 v
        fCoerced := decide (arg.toInt < 500 ∨ 1000000 < arg.toInt), fLen := 8, fIdx := 8
        emitted := s.emitted ++
          [.tx 0xFE false, .tx 0x06 false, .tx sid false, .tx 0x02 false,
            .tx r0 false, .tx r1 false, .tx r2 false, .tx r3 false,
            .tx (sid ^^^ 0x04 ^^^ r0 ^^^ r1 ^^^ r2 ^^^ r3) true,
            .cst (decide (arg.toInt < 500 ∨ 1000000 < arg.toInt))] }

/-- 41 R132, the spec's own inference from R134. The same CMD event always gives the same TX bytes and the same flag,
whatever came before it. -/
def Obligations.CommandOutputIsPure : Prop :=
  ∀ (op : BitVec 2) (sid : Byte) (arg : Arg), ∃ es : List OutEvent, ∀ s : State, s.phase = .idle →
    ∃ t, exec (decodeCmd op sid arg) s = .next t ∧ Emits s t es

/-- 41 R134. Acceptance of a CMD event. -/
def Obligations.CommandAcceptLatches : Prop :=
  ∀ (op : BitVec 2) (sid : Byte) (arg : Arg) (rest : List PortEvent) (s : State),
    ReadyForEvents s → s.offered = .cmd op sid arg :: rest →
    step s = .next { s with
      offered := rest, fOp := op, fSid := sid
      fVal :=
        if op = 2 then BitVec.ofNat 32 (coerceRange arg.toInt)
        else if op = 3 then BitVec.ofNat 32 (coerceRate arg.toInt) else 0
      fCoerced :=
        if op = 2 then rangeCoerced arg.toInt else if op = 3 then rateCoerced arg.toInt else false
      fLen := if op = 2 then 5 else if op = 3 then 8 else 4
      fIdx := 0, mode := true, acc := 0x00, phase := .framing }

/-- 41 R135. A body byte of FRAMING is the byte of that index in the body of the latched command. -/
def Obligations.FramingEmitsBodyByte : Prop :=
  ∀ s : State, s.rst = false → s.phase = .framing → s.fLen = bodyLength s.fOp → s.fIdx < s.fLen →
    ∃ b, (latchedBody s.fOp s.fSid s.fVal)[s.fIdx.toNat]? = some b ∧
      step s = .next { s with emitted := s.emitted ++ [.tx b false], acc := s.acc ^^^ b, fIdx := s.fIdx + 1 }

/-- 41 R136. The checksum byte, then CST, then IDLE; ACC and MODE keep their values, which in a state of the invariant are
the fold of the body and 1. -/
def Obligations.FramingEndsWithChecksum : Prop :=
  ∀ s : State, s.rst = false → s.phase = .framing → s.fIdx = s.fLen →
    step s = .next { s with
      emitted := s.emitted ++ [.tx (s.acc ^^^ 0xFE) true, .cst s.fCoerced], phase := .idle } ∧
    (s.Inv → s.mode = true ∧ s.acc = xorFold (latchedBody s.fOp s.fSid s.fVal))

/-- 41 R137, the spec's own inference. The byte-serial framer, from a CMD event accepted in IDLE, reaches in F_LEN + 1
further steps the state of the whole command. -/
def Obligations.FramerRefinesCommand : Prop :=
  ∀ (op : BitVec 2) (sid : Byte) (arg : Arg) (rest : List PortEvent) (s : State),
    ReadyForEvents s → s.offered = .cmd op sid arg :: rest →
    steps ((bodyLength op).toNat + 2) s = exec (decodeCmd op sid arg) { s with offered := rest }

/-! ### frame_validator -/

/-- 42 R156, R157. The first byte of a frame, when it is not the last: inbound mode, a fresh fold, the byte in cell 0, no
other cell changed. -/
def Obligations.FirstByteStartsFrame : Prop :=
  ∀ (b : Byte) (rest : List PortEvent) (s : State),
    ReadyForEvents s → 1 ≤ s.cfg.nMax → s.offered = .rx b false :: rest →
    ∃ t, step s = .next t ∧ t.mode = false ∧ t.acc = b ∧ t.vLen = 1 ∧ t.vOvf = false ∧ t.phase = .receiving ∧
      fbGet t.fb 0 = some b ∧ (∀ a, a ≠ 0 → fbGet t.fb a = fbGet s.fb a) ∧
      SameFramer s t ∧ SameDecoder s t ∧ t.cfg = s.cfg ∧ t.rst = s.rst ∧ t.offered = rest ∧ Emits s t []

/-- 42 R157. A further byte is folded, and stored at V_LEN while there is room; without room only V_OVF is set. -/
def Obligations.ReceivedByteIsFoldedAndStored : Prop :=
  ∀ (b : Byte) (rest : List PortEvent) (s : State),
    s.rst = false → s.phase = .receiving → s.offered = .rx b false :: rest →
    ∃ t, step s = .next t ∧ t.acc = s.acc ^^^ b ∧ t.mode = s.mode ∧ t.phase = .receiving ∧
      (s.vLen < s.cfg.nMax → t.vLen = s.vLen + 1 ∧ t.vOvf = s.vOvf ∧ fbGet t.fb s.vLen = some b ∧
        ∀ a, a ≠ s.vLen → fbGet t.fb a = fbGet s.fb a) ∧
      (s.cfg.nMax ≤ s.vLen → t.vLen = s.vLen ∧ t.vOvf = true ∧ SameMemory s t) ∧
      SameFramer s t ∧ SameDecoder s t ∧ t.cfg = s.cfg ∧ t.rst = s.rst ∧ t.offered = rest ∧ Emits s t []

/-- 42 R158 to R160 and 60 R230: the verdict at the last byte, the checksum first, then the length. -/
def Obligations.LastByteGivesVerdict : Prop :=
  ∀ (b : Byte) (rest : List PortEvent) (s : State),
    s.rst = false → s.phase = .receiving → s.offered = .rx b true :: rest →
    ∃ t, step s = .next t ∧ t.acc = s.acc ^^^ b ∧ t.mode = s.mode ∧
      (s.acc ^^^ b ≠ 0x00 →
        Emits s t [.ev (.finish .checksumMismatch 0 0)] ∧ t.phase = .idle ∧ SameDecoder s t) ∧
      (s.acc ^^^ b = 0x00 → (s.vOvf = true ∨ s.cfg.nMax ≤ s.vLen) →
        Emits s t [.ev (.finish .frameOverflow 0 0)] ∧ t.phase = .idle ∧ SameDecoder s t) ∧
      (s.acc ^^^ b = 0x00 → s.vOvf = false → s.vLen < s.cfg.nMax →
        Emits s t [] ∧ t.phase = .decoding ∧ t.dLen = s.vLen ∧ t.dCur = min 1 s.vLen)

/-- 42 R151: `validate` compares the last byte with the inbound checksum of the bytes before it. -/
def Obligations.ValidateComparesLastByte : Prop :=
  ∀ (P : List Byte) (rc : Byte),
    validateFrame (P ++ [rc]) = some (if inboundChecksum P = rc then .ok P else .checksumMismatch)

/-- 42 R155; that the outbound checksum fails for every b is the spec's own inference from 40 R111. -/
def Obligations.SerializeValidateRoundTrip : Prop :=
  ∀ b : List Byte,
    validateFrame (serializeWithChecksum b) = some (.ok b) ∧
    validateFrame (b ++ [outboundChecksum b]) = some .checksumMismatch

/-- 42 R161, the spec's own inference, with R151. VALIDATE (one operation: log 29) completes on every non-empty frame
offered in IDLE. The bytes stand in FB from index 0 up to the capacity, every other cell is as before; a mismatch and
an overflow end the frame; otherwise decoding starts on the payload. -/
def Obligations.ValidateCompletes : Prop :=
  ∀ (raw : List Byte) (s : State), s.phase = .idle → raw ≠ [] →
    ∃ t, exec (.validate raw) s = .next t ∧
      t.mode = false ∧ t.acc = xorFold raw ∧
      t.vLen = min raw.length s.cfg.nMax ∧ t.vOvf = decide (s.cfg.nMax < raw.length) ∧
      (∀ a, a < min raw.length s.cfg.nMax → fbGet t.fb a = raw[a]?) ∧
      (∀ a, min raw.length s.cfg.nMax ≤ a → fbGet t.fb a = fbGet s.fb a) ∧
      SameFramer s t ∧ SameOutside s t ∧
      (validateFrame raw = some .checksumMismatch →
        t.phase = .idle ∧ SameDecoder s t ∧ Emits s t [.ev (.finish .checksumMismatch 0 0)]) ∧
      (∀ P, validateFrame raw = some (.ok P) → s.cfg.nMax < raw.length →
        t.phase = .idle ∧ SameDecoder s t ∧ Emits s t [.ev (.finish .frameOverflow 0 0)]) ∧
      (∀ P, validateFrame raw = some (.ok P) → raw.length ≤ s.cfg.nMax →
        t.phase = .decoding ∧ t.dLen = P.length ∧ t.dCur = min 1 P.length ∧ readCells t.fb 0 t.dLen = .ok P ∧
          Emits s t [])

/-- 30 R91: the RX events of a frame, one by one, reach the state of the whole VALIDATE; in RECEIVING, where VALIDATE
goes on with the frame in progress (log 29), too. -/
def Obligations.RxEventsRefineValidate : Prop :=
  (∀ (raw : List Byte) (rest : List PortEvent) (s : State),
    ReadyForEvents s → raw ≠ [] → s.offered = rxEvents raw ++ rest →
    steps raw.length s = exec (.validate raw) { s with offered := rest }) ∧
  (∀ (raw : List Byte) (rest : List PortEvent) (s : State),
    s.rst = false → s.phase = .receiving → raw ≠ [] → s.offered = rxEvents raw ++ rest →
    steps raw.length s = exec (.validate raw) { s with offered := rest } ∧
    ∃ t, exec (.validate raw) { s with offered := rest } = .next t ∧ t.mode = s.mode ∧ t.acc = s.acc ^^^ xorFold raw ∧
      (t.phase = .idle ∨ t.phase = .decoding))

/-- The model's choice (log 15) after 42 R153 b and decision D10: an empty sequence is refused, not given a value. -/
def Obligations.EmptyFrameIsRefused : Prop :=
  ∀ s : State, exec (.validate []) s = .refused .emptyRawFrame ∧ validateFrame [] = none

/-! ### field_decoder -/

/-- 43 R184, R185, R187: a sensor segment, read from its seven bytes, completes at the cursor with one READING of its
raw counts and a stride of 7; cut short (43 R177), the frame ends with TRUNCATED_SEGMENT at the tag's index. That
D_CUR then stays on the tag is the model's reading of R188 and 60 R232 (log 25). -/
def Obligations.SensorSegmentReadings : Prop :=
  (∀ lx hx ly hy lz hz : Byte,
    decodeSegment [0x02, lx, hx, ly, hy, lz, hz] =
      .ok (.segAcc (some { x := le16 lx hx, y := le16 ly hy, z := le16 lz hz })) ∧
    decodeSegment [0x03, lx, hx, ly, hy, lz, hz] =
      .ok (.segMag (some { x := le16 lx hx, y := le16 ly hy, z := le16 lz hz })) ∧
    decodeSegment [0x04, lx, hx, ly, hy, lz, hz] =
      .ok (.segGyro (some { x := le16 lx hx, y := le16 ly hy, z := le16 lz hz }))) ∧
  (∀ (v : Triple) (s : State), s.phase = .decoding →
    exec (.segAcc (some v)) s =
      .next { s with emitted := s.emitted ++ [.ev (.reading .acc v.x v.y v.z true)], dCur := s.dCur + 7 } ∧
    exec (.segMag (some v)) s =
      .next { s with emitted := s.emitted ++ [.ev (.reading .mag v.x v.y v.z false)], dCur := s.dCur + 7 } ∧
    exec (.segGyro (some v)) s =
      .next { s with emitted := s.emitted ++ [.ev (.reading .gyro v.x v.y v.z false)], dCur := s.dCur + 7 } ∧
    exec (.segAcc none) s =
      .next { s with emitted := s.emitted ++ [.ev (.finish .truncatedSegment 0x02 s.dCur)], phase := .idle } ∧
    exec (.segMag none) s =
      .next { s with emitted := s.emitted ++ [.ev (.finish .truncatedSegment 0x03 s.dCur)], phase := .idle } ∧
    exec (.segGyro none) s =
      .next { s with emitted := s.emitted ++ [.ev (.finish .truncatedSegment 0x04 s.dCur)], phase := .idle })

/-- 43 R180, R181: an enable-ack completes with one ACK, no READING, and a stride of 6 after the tag, clamped to the
end of the payload; with fewer than two bytes the frame ends with TRUNCATED_SEGMENT. Both short forms are ASSUMED from
decision D12 (93 U2, log 17); that D_CUR stays on the tag of a cut-short ack is log 25. -/
def Obligations.EnableAckStride : Prop :=
  ∀ (sid flag : Byte) (s : State), s.phase = .decoding →
    exec (.segEnableAck (some { sid := sid, flag := flag })) s =
      .next { s with emitted := s.emitted ++ [.ev (.ack sid flag)], dCur := min (s.dCur + 1 + 6) s.dLen } ∧
    exec (.segEnableAck none) s =
      .next { s with emitted := s.emitted ++ [.ev (.finish .truncatedSegment 0x01 s.dCur)], phase := .idle }

/-- 43 R182: an undefined tag ends the frame; the cursor is not advanced. -/
def Obligations.UnknownTagEndsFrame : Prop :=
  ∀ (tag : Byte) (s : State), s.phase = .decoding →
    exec (.segUnknown tag) s =
      .next { s with emitted := s.emitted ++ [.ev (.finish .unknownSegmentType tag s.dCur)], phase := .idle }

/-- 43 R176, R178: from FB, a sensor tag at the cursor with six bytes inside the payload gives the READING whose counts
hold `signed16` of the little-endian pairs. -/
def Obligations.FullSensorSegmentStep : Prop :=
  ∀ (kind : ReadingKind) (lx hx ly hy lz hz : Byte) (s : State),
    DecodingByPasses s → s.dCur + 7 ≤ s.dLen → readCells s.fb s.dCur 7 = .ok [kind.tag, lx, hx, ly, hy, lz, hz] →
    ∃ x y z : Count,
      step s =
        .next { s with emitted := s.emitted ++ [.ev (.reading kind x y z (kind == .acc))], dCur := s.dCur + 7 } ∧
      x.toInt = signed16 (le16 lx hx) ∧ y.toInt = signed16 (le16 ly hy) ∧ z.toInt = signed16 (le16 lz hz)

/-- 43 R177: from FB, a sensor tag with fewer than six bytes after it inside the payload. That D_CUR stays on the tag
is the model's reading of R188 and 60 R232 (log 25). -/
def Obligations.TruncatedSensorStep : Prop :=
  ∀ (kind : ReadingKind) (s : State),
    DecodingByPasses s → s.dCur < s.dLen → s.dLen < s.dCur + 7 → fbGet s.fb s.dCur = some kind.tag →
    step s =
      .next { s with emitted := s.emitted ++ [.ev (.finish .truncatedSegment kind.tag s.dCur)], phase := .idle }

/-- 43 R180, R181: from FB, an enable-ack tag; whatever follows the two ack bytes is not examined. Both short forms
are ASSUMED from decision D12 (93 U2, log 17); that D_CUR stays on the tag of a cut-short ack is log 25. -/
def Obligations.EnableAckStep : Prop :=
  ∀ s : State, DecodingByPasses s → s.dCur < s.dLen → fbGet s.fb s.dCur = some 0x01 →
    (∀ sid flag : Byte, s.dCur + 3 ≤ s.dLen → fbGet s.fb (s.dCur + 1) = some sid → fbGet s.fb (s.dCur + 2) = some flag →
      step s = .next { s with emitted := s.emitted ++ [.ev (.ack sid flag)], dCur := min (s.dCur + 7) s.dLen }) ∧
    (s.dLen < s.dCur + 3 →
      step s = .next { s with emitted := s.emitted ++ [.ev (.finish .truncatedSegment 0x01 s.dCur)], phase := .idle })

/-- 43 R182, R183: from FB, any other tag ends the frame at that tag, the cursor not advanced; and the end of the
payload ends it with OK. -/
def Obligations.UnknownTagAndEndSteps : Prop :=
  ∀ s : State, DecodingByPasses s →
    (∀ t : Byte, s.dCur < s.dLen → fbGet s.fb s.dCur = some t → t ≠ 1 → t ≠ 2 → t ≠ 3 → t ≠ 4 →
      step s = .next { s with emitted := s.emitted ++ [.ev (.finish .unknownSegmentType t s.dCur)], phase := .idle }) ∧
    (s.dLen ≤ s.dCur →
      step s = .next { s with emitted := s.emitted ++ [.ev (.finish .ok 0 0)], phase := .idle })

/-- 43 R171 to R183: the events of DECODE are those of the spec's loop over indexes, started at index 1, and that loop emits
at most one list of events, so DECODE is fixed by it. -/
def Obligations.DecodeFollowsAlgorithm : Prop :=
  decodePayload [] = [.finish .ok 0 0] ∧
  (∀ P : List Byte, P ≠ [] → DecodesFrom P 1 (decodePayload P)) ∧
  (∀ (P : List Byte) (cur : Nat) (a b : List EvEvent), DecodesFrom P cur a → DecodesFrom P cur b → a = b)

/-- 43 R171, R188: DECODE as one operation completes in DECODING: it emits the events of `decode(P)`, returns to IDLE,
and leaves every other unit, FB and the outside as they are; the cursor stays inside the payload (R189, the spec's own
inference; what D_LEN and D_CUR hold after a whole DECODE is the model's reading, log 26). -/
def Obligations.DecodeCompletes : Prop :=
  ∀ (P : List Byte) (s : State), s.phase = .decoding →
    ∃ t, exec (.decode P) s = .next t ∧ Emits s t ((decodePayload P).map OutEvent.ev) ∧ t.phase = .idle ∧
      t.dLen = P.length ∧ t.dCur ≤ P.length ∧ (P ≠ [] → 1 ≤ t.dCur) ∧
      SameChecksum s t ∧ SameFramer s t ∧ SameValidator s t ∧ SameOutside s t ∧ SameMemory s t

/-- 10 R37, 43 R191, R192 (an inference of the spec): READING and ACK events, then exactly one END, which is the last;
at most ceil((n - 1) / 7) events before it. -/
def Obligations.DecodeEndsOnce : Prop :=
  ∀ P : List Byte, ∃ (init : List EvEvent) (st : EndStatus) (tag : Byte) (off : Nat),
    decodePayload P = init ++ [.finish st tag off] ∧
    (∀ e ∈ init, ∀ st' tag' off', e ≠ .finish st' tag' off') ∧
    init.length ≤ (P.length - 1 + 6) / 7

/-- 43 R188: the decoder's passes, from the start of a payload, reach the state of the whole DECODE (with the D_LEN
and D_CUR of log 26), in at most D_LEN / 7 + 2 steps (20 R60). -/
def Obligations.PassesRefineDecode : Prop :=
  ∀ (P : List Byte) (s : State),
    DecodingByPasses s → s.dLen = P.length → s.dCur = min 1 P.length → readCells s.fb 0 P.length = .ok P →
    ∃ k, k ≤ P.length / 7 + 2 ∧ steps k s = exec (.decode P) s

/-- 43 R190, the spec's own inference from 42 R161 and R188. A raw frame offered byte by byte to an idle block is
answered by `receive(R)`, and the block is idle again. So is a raw frame that the read loop presents in a session at
Ready (44 R210, 70 R265; the Session model: log 21, 34), after which the next cycle may begin. -/
def Obligations.BlockAnswersReceive : Prop :=
  (∀ (raw : List Byte) (rest : List PortEvent) (s : State),
    ReadyForEvents s → raw ≠ [] → s.offered = rxEvents raw ++ rest →
    ∃ (k : Nat) (t : State) (es : List EvEvent),
      steps k s = .next t ∧ t.phase = .idle ∧ t.offered = rest ∧
      receive s.cfg.nMax raw = some es ∧ Emits s t (es.map OutEvent.ev)) ∧
  (∀ (raw : List Byte) (h : Session),
    h.mayReadFrame = true → h.block.rst = false → h.block.cfg.grain = .event → raw ≠ [] →
    ∃ (k : Nat) (h' : Session) (es : List EvEvent),
      Session.run (.readFrame raw :: List.replicate k .blockStep) h = .next h' ∧
      receive h.block.cfg.nMax raw = some es ∧ Emits h.block h'.block (es.map OutEvent.ev) ∧
      h'.mayReadFrame = true ∧ h'.issued = h.issued)

/-- 43 R178: the source's formula, its closed form (decision D14, which the spec takes from general knowledge; log
19), and the register it fits. -/
def Obligations.SignedConversion : Prop :=
  ∀ v : Count,
    signed16 v = v.toInt ∧
    signed16 v = (if v.toNat < 32768 then (v.toNat : Int) else (v.toNat : Int) - 65536) ∧
    -32768 ≤ signed16 v ∧ signed16 v ≤ 32767 ∧ axisCount v = v

/-- 43 R179: a READING carries its kind and the raw counts; accelerometer values are exact thousandths, in -32.768 to
32.767; the others are the raw integers. -/
def Obligations.AxisValuesAreExact : Prop :=
  (∀ (kind : ReadingKind) (v : Triple), readingOf kind v = .reading kind v.x v.y v.z (kind == .acc) ∧
    (readingOf kind v).values =
      some (axisValue (kind == .acc) v.x, axisValue (kind == .acc) v.y, axisValue (kind == .acc) v.z)) ∧
  ∀ v : Count,
    axisValue true v * 1000 = (signed16 v : ℚ) ∧ axisValue false v = (signed16 v : ℚ) ∧
    -32768 / 1000 ≤ axisValue true v ∧ axisValue true v ≤ 32767 / 1000

/-! ### What is left unchanged -/

/-- The frame of the six checksum operations (40 R103 to R106, R109, R110): they change MODE, ACC and the results only. -/
def Obligations.ChecksumOperationsFrame : Prop :=
  ∀ (i : Instr) (s t : State),
    (∃ m b, i = .ckStart m b ∨ i = .ckAbsorb m b ∨ i = .ckRead m b ∨ i = .ckReserved m b) ∨
      (∃ bytes, i = .cksumOut bytes ∨ i = .cksumIn bytes) →
    exec i s = .next t →
    t.phase = s.phase ∧ SameFramer s t ∧ SameValidator s t ∧ SameDecoder s t ∧ SameOutside s t ∧ SameMemory s t ∧
    (∃ es, Emits s t es) ∧
    ((∃ m b, i = .ckAbsorb m b ∨ i = .ckRead m b ∨ i = .ckReserved m b) → t.mode = s.mode) ∧
    ((∃ m b, i = .ckRead m b ∨ i = .ckReserved m b) → t.acc = s.acc) ∧
    ((∃ m b, i = .ckStart m b ∨ i = .ckAbsorb m b ∨ i = .ckReserved m b) → Emits s t [])

/-- The frame of the four commands (41 R134 to R136): they change the framer's registers, MODE and ACC only. -/
def Obligations.CommandsFrame : Prop :=
  ∀ (i : Instr) (s t : State),
    (∃ sid arg, i = .disable sid arg ∨ i = .enable sid arg ∨ i = .setAccelRange sid arg ∨ i = .setSamplingRate sid arg) →
    exec i s = .next t →
    t.phase = s.phase ∧ SameValidator s t ∧ SameDecoder s t ∧ SameOutside s t ∧ SameMemory s t ∧ (∃ es, Emits s t es)

/-- The frame of the segments (43 R188, 60 R232): they change the cursor or, at the end of the frame, PHASE; one
event. That D_CUR stays on the tag of a cut-short segment is log 25. -/
def Obligations.SegmentsFrame : Prop :=
  ∀ (i : Instr) (s t : State),
    (∃ a, i = .segEnableAck a) ∨ (∃ v, i = .segAcc v ∨ i = .segMag v ∨ i = .segGyro v) ∨ (∃ tag, i = .segUnknown tag) →
    exec i s = .next t →
    SameChecksum s t ∧ SameFramer s t ∧ SameValidator s t ∧ t.dLen = s.dLen ∧ SameOutside s t ∧ SameMemory s t ∧
    (t.phase = s.phase ∨ (t.phase = .idle ∧ t.dCur = s.dCur)) ∧
    (s.phase = .decoding → ∃ e, Emits s t [.ev e])

/-- 10 R20, 20 R66: a checksum sequence and a command are answered the same, and a raw frame gets the same verdict and
gives the decoder the same payload, lengths and cursor, whatever the registers and the frame buffer hold. -/
def Obligations.OutputsIgnoreHistory : Prop :=
  ∀ (i : Instr) (s1 s2 t1 t2 : State),
    (∃ bytes, i = .cksumOut bytes ∨ i = .cksumIn bytes ∨ i = .validate bytes) ∨
      (∃ op sid arg, i = decodeCmd op sid arg) →
    s1.phase = .idle → s2.phase = .idle → s1.cfg = s2.cfg →
    exec i s1 = .next t1 → exec i s2 = .next t2 →
    t1.phase = t2.phase ∧ t1.mode = t2.mode ∧ t1.acc = t2.acc ∧ (∃ es, Emits s1 t1 es ∧ Emits s2 t2 es) ∧
    (t1.phase = .decoding →
      t1.vLen = t2.vLen ∧ t1.dLen = t2.dLen ∧ t1.dCur = t2.dCur ∧
      readCells t1.fb 0 t1.dLen = readCells t2.fb 0 t2.dLen ∧
      ∃ P, readCells t1.fb 0 t1.dLen = .ok P ∧ i = .validate (serializeWithChecksum P))

/-! ### The machine -/

/-- 70 R261, 10 R41: while `rst` is asserted a step accepts and emits nothing and leaves every register at its reset
value (reset as a level whose step writes the registers: log 7); once it is released with nothing offered, the block
waits in IDLE (a step that changes nothing: log 5). -/
def Obligations.ResetInputHoldsRegisters : Prop :=
  ∀ s : State, s.rst = true →
    ∃ t, step s = .next t ∧
      t.phase = .idle ∧ t.mode = false ∧ t.acc = 0x00 ∧ t.fOp = 0 ∧ t.fSid = 0 ∧ t.fVal = 0 ∧ t.fCoerced = false ∧
      t.fLen = 0 ∧ t.fIdx = 0 ∧ t.vLen = 0 ∧ t.vOvf = false ∧ t.dLen = 0 ∧ t.dCur = 0 ∧
      SameOutside s t ∧ Emits s t [] ∧
      step { t with rst := false, offered := [] } = .next { t with rst := false, offered := [] }

/-- The reset state meets the invariant. -/
def Obligations.ResetMeetsInvariant : Prop := State.reset.Inv

/-- The invariant of Sys2Proof/Safety.lean (00 R6, 20 R50, R64, 30 R80, R81, 41 R134 to R136, 42 R156, R157, 43 R189)
is kept by every step. -/
def Obligations.StepKeepsInvariant : Prop :=
  ∀ s t : State, s.Inv → step s = .next t → t.Inv

/-- 10 R42 and 43 R189, inferences of the spec: from a state that meets the invariant no step stops; no cell is read
unwritten, no read leaves the payload, and nothing is refused. -/
def Obligations.StepNeverStops : Prop :=
  ∀ s : State, s.Inv → ∃ t, step s = .next t

/-- A step executes the decoded instruction: a CK event in IDLE, a whole operation in IDLE, the segment at the cursor
and the whole payload in DECODING; what the step adds is that the operation's events are no longer offered. Which of
the two grains a machine has is the model's choice (log 1). -/
def Obligations.StepRunsDecodedInstruction : Prop :=
  ∀ (s : State) (i : Instr), s.rst = false →
    (∀ op m b rest, s.phase = .idle → s.cfg.grain = .event → s.offered = .ck op m b :: rest → decodeCk op m b = i →
      step s = exec i { s with offered := rest }) ∧
    (∀ rest, s.phase = .idle → s.cfg.grain = .operation → decodeOperation s.offered = .ok (i, rest) →
      step s = exec i { s with offered := rest }) ∧
    (∀ bs, s.phase = .decoding → s.cfg.grain = .event → segmentBytes s = .ok bs → decodeSegment bs = .ok i →
      step s = exec i s) ∧
    (∀ P, s.phase = .decoding → s.cfg.grain = .operation → s.dCur = min 1 s.dLen → memRead s 0 s.dLen = .ok P →
      step s = exec (.decode P) s)

/-! ### Encodings -/

/-- Decoding the encoding of a well-formed instruction gives it back, with every operand (the ignored fields of a
checksum sequence: log 35; the stepped-over bytes of an ack: log 28). -/
def Obligations.DecodeEncodeAgree : Prop :=
  ∀ i : Instr, i.wf = true → decode (encode i) = .ok i

/-- 30 R71 to R73: a frame the framer builds has the shape of its table row: read back, it is the command with its
sensor id and its coerced argument (an ignored port field as in log 13). -/
def Obligations.BuiltFramesMatchTableRows : Prop :=
  ∀ (sid : Byte) (arg : Arg),
    decodeWire (frame (onOffBody sid 0x00)) = .ok (.disable sid 0) ∧
    decodeWire (frame (onOffBody sid 0x01)) = .ok (.enable sid 0) ∧
    decodeWire (frame (rangeBody (rangeValue arg))) = .ok (.setAccelRange 0x80 (rangeValue arg)) ∧
    decodeWire (frame (rateBody sid (rateValue arg))) = .ok (.setSamplingRate sid (rateValue arg))

/-- Words of spec/opcode_table.json, written out from their rows (their numbering: log 11). -/
def Obligations.TableWordsDecode : Prop :=
  decodeTableWord 16 0b00100000000 = some (.ckStart true 0x00) ∧
  decodeTableWord 16 0b01010000010 = some (.ckAbsorb false 0x82) ∧
  decodeTableWord 16 0b10000000000 = some (.ckRead false 0x00) ∧
  decodeTableWord 40 0xFE02800082 = some (.disable 0x80 0) ∧
  decodeTableWord 72 0xFE068002A0860100A3 = some (.setSamplingRate 0x80 100000) ∧
  decodeTableWord 56 0x030A0014001E00 = some (.segMag (some { x := 10, y := 20, z := 30 })) ∧
  decodeTableWord 8 0x05 = some (.segUnknown 0x05)

/-! ### The Configuration Sequencer -/

/-- 44 R202 to R204, R206, R211 (the counts are the spec's own inference): BRING_UP, run on an idle block whole
operation by whole operation, emits exactly these twelve frames in this order, each followed by its CST, for every
range and rate; 73 bytes in all. -/
def Obligations.BringUpEmitsTwelveFrames : Prop :=
  ∀ (range rate : Arg) (s : State),
    s.rst = false → s.phase = .idle → s.cfg.grain = .operation →
    s.offered = (bringUp range rate).flatMap commandEvents →
    ∃ (t : State) (es : List OutEvent), steps 12 s = .next t ∧ t.phase = .idle ∧ t.offered = [] ∧ Emits s t es ∧
      es =
        frameEvents (onOffBody 0x80 0) ++ [.cst false] ++ frameEvents (onOffBody 0x81 0) ++ [.cst false] ++
        frameEvents (onOffBody 0x82 0) ++ [.cst false] ++ frameEvents (onOffBody 0x83 0) ++ [.cst false] ++
        frameEvents (onOffBody 0x84 0) ++ [.cst false] ++
        frameEvents (rangeBody (rangeValue range)) ++ [.cst (rangeCoerced range.toInt)] ++
        frameEvents (rateBody 0x80 (rateValue rate)) ++ [.cst (rateCoerced rate.toInt)] ++
        frameEvents (onOffBody 0x80 1) ++ [.cst false] ++
        frameEvents (rateBody 0x81 (rateValue rate)) ++ [.cst (rateCoerced rate.toInt)] ++
        frameEvents (onOffBody 0x81 1) ++ [.cst false] ++
        frameEvents (rateBody 0x82 (rateValue rate)) ++ [.cst (rateCoerced rate.toInt)] ++
        frameEvents (onOffBody 0x82 1) ++ [.cst false] ∧
      (es.filter (fun e => !OutEvent.isCst e)).length = 73 ∧ (es.filter OutEvent.isCst).length = 12

/-- 44 R200, R202 to R204, R208, R209, in the Session model (log 21): whatever happens in a session after its start,
the commands issued are a first part of BRING_UP in its order (ignored port fields: log 31), all of it once the
sequencer is Ready and no write failed; no ack is awaited (log 33) and nothing is undone (log 32). -/
def Obligations.SessionIssuesBringUpInOrder : Prop :=
  ∀ (range rate : Arg) (events : List SessionEvent) (h : Session),
    Session.run (.startup range rate :: events) Session.initial = .next h →
    h.issued <+: bringUp range rate ∧ (h.seq = .ready → h.aborted = false → h.issued = bringUp range rate)

/-- 44 R207 to R209, in the Session model (log 21): while a CST is awaited, while the pacing delay runs and after a
failed write the host issues nothing; when it issues a command it waits for its CST, and when the CST comes it waits
for the delay. -/
def Obligations.SessionWaitsForPace : Prop :=
  ∀ h : Session,
    (h.awaitCst = true ∨ h.awaitPace = true ∨ h.aborted = true → h.advance = h) ∧
    (h.advance.issued ≠ h.issued → h.advance.awaitCst = true) ∧
    (∀ h', h.step .blockStep = .next h' → h.awaitCst = true → h'.awaitCst = false → h'.awaitPace = true)
end

