-- ==== Sys2Proof/Laws/State.lean ====
section
/-! SUPPORT. What each named update of State leaves in each field: one simp lemma per field per update, true by rfl. -/

namespace Sys2Proof.Machine

open Sys2Proof

/-! ### State.emit -/

@[simp] theorem State.emit_cfg (s : State) (es : List OutEvent) : (s.emit es).cfg = s.cfg := rfl
@[simp] theorem State.emit_rst (s : State) (es : List OutEvent) : (s.emit es).rst = s.rst := rfl
@[simp] theorem State.emit_phase (s : State) (es : List OutEvent) : (s.emit es).phase = s.phase := rfl
@[simp] theorem State.emit_mode (s : State) (es : List OutEvent) : (s.emit es).mode = s.mode := rfl
@[simp] theorem State.emit_acc (s : State) (es : List OutEvent) : (s.emit es).acc = s.acc := rfl
@[simp] theorem State.emit_fOp (s : State) (es : List OutEvent) : (s.emit es).fOp = s.fOp := rfl
@[simp] theorem State.emit_fSid (s : State) (es : List OutEvent) : (s.emit es).fSid = s.fSid := rfl
@[simp] theorem State.emit_fVal (s : State) (es : List OutEvent) : (s.emit es).fVal = s.fVal := rfl
@[simp] theorem State.emit_fCoerced (s : State) (es : List OutEvent) : (s.emit es).fCoerced = s.fCoerced := rfl
@[simp] theorem State.emit_fLen (s : State) (es : List OutEvent) : (s.emit es).fLen = s.fLen := rfl
@[simp] theorem State.emit_fIdx (s : State) (es : List OutEvent) : (s.emit es).fIdx = s.fIdx := rfl
@[simp] theorem State.emit_vLen (s : State) (es : List OutEvent) : (s.emit es).vLen = s.vLen := rfl
@[simp] theorem State.emit_vOvf (s : State) (es : List OutEvent) : (s.emit es).vOvf = s.vOvf := rfl
@[simp] theorem State.emit_fb (s : State) (es : List OutEvent) : (s.emit es).fb = s.fb := rfl
@[simp] theorem State.emit_dLen (s : State) (es : List OutEvent) : (s.emit es).dLen = s.dLen := rfl
@[simp] theorem State.emit_dCur (s : State) (es : List OutEvent) : (s.emit es).dCur = s.dCur := rfl
@[simp] theorem State.emit_offered (s : State) (es : List OutEvent) : (s.emit es).offered = s.offered := rfl
@[simp] theorem State.emit_emitted (s : State) (es : List OutEvent) : (s.emit es).emitted = s.emitted ++ es := rfl

/-! ### State.raise -/

@[simp] theorem State.raise_cfg (s : State) (st : EndStatus) (tag : Byte) (off : Nat) : (s.raise st tag off).cfg = s.cfg := rfl
@[simp] theorem State.raise_rst (s : State) (st : EndStatus) (tag : Byte) (off : Nat) : (s.raise st tag off).rst = s.rst := rfl
@[simp] theorem State.raise_phase (s : State) (st : EndStatus) (tag : Byte) (off : Nat) : (s.raise st tag off).phase = .idle := rfl
@[simp] theorem State.raise_mode (s : State) (st : EndStatus) (tag : Byte) (off : Nat) : (s.raise st tag off).mode = s.mode := rfl
@[simp] theorem State.raise_acc (s : State) (st : EndStatus) (tag : Byte) (off : Nat) : (s.raise st tag off).acc = s.acc := rfl
@[simp] theorem State.raise_fOp (s : State) (st : EndStatus) (tag : Byte) (off : Nat) : (s.raise st tag off).fOp = s.fOp := rfl
@[simp] theorem State.raise_fSid (s : State) (st : EndStatus) (tag : Byte) (off : Nat) : (s.raise st tag off).fSid = s.fSid := rfl
@[simp] theorem State.raise_fVal (s : State) (st : EndStatus) (tag : Byte) (off : Nat) : (s.raise st tag off).fVal = s.fVal := rfl
@[simp] theorem State.raise_fCoerced (s : State) (st : EndStatus) (tag : Byte) (off : Nat) : (s.raise st tag off).fCoerced = s.fCoerced := rfl
@[simp] theorem State.raise_fLen (s : State) (st : EndStatus) (tag : Byte) (off : Nat) : (s.raise st tag off).fLen = s.fLen := rfl
@[simp] theorem State.raise_fIdx (s : State) (st : EndStatus) (tag : Byte) (off : Nat) : (s.raise st tag off).fIdx = s.fIdx := rfl
@[simp] theorem State.raise_vLen (s : State) (st : EndStatus) (tag : Byte) (off : Nat) : (s.raise st tag off).vLen = s.vLen := rfl
@[simp] theorem State.raise_vOvf (s : State) (st : EndStatus) (tag : Byte) (off : Nat) : (s.raise st tag off).vOvf = s.vOvf := rfl
@[simp] theorem State.raise_fb (s : State) (st : EndStatus) (tag : Byte) (off : Nat) : (s.raise st tag off).fb = s.fb := rfl
@[simp] theorem State.raise_dLen (s : State) (st : EndStatus) (tag : Byte) (off : Nat) : (s.raise st tag off).dLen = s.dLen := rfl
@[simp] theorem State.raise_dCur (s : State) (st : EndStatus) (tag : Byte) (off : Nat) : (s.raise st tag off).dCur = s.dCur := rfl
@[simp] theorem State.raise_offered (s : State) (st : EndStatus) (tag : Byte) (off : Nat) : (s.raise st tag off).offered = s.offered := rfl
@[simp] theorem State.raise_emitted (s : State) (st : EndStatus) (tag : Byte) (off : Nat) : (s.raise st tag off).emitted = s.emitted ++ [.ev (.finish st tag off)] := rfl

/-! ### State.memWrite -/

@[simp] theorem State.memWrite_cfg (s : State) (k : Nat) (v : Byte) : (s.memWrite k v).cfg = s.cfg := rfl
@[simp] theorem State.memWrite_rst (s : State) (k : Nat) (v : Byte) : (s.memWrite k v).rst = s.rst := rfl
@[simp] theorem State.memWrite_phase (s : State) (k : Nat) (v : Byte) : (s.memWrite k v).phase = s.phase := rfl
@[simp] theorem State.memWrite_mode (s : State) (k : Nat) (v : Byte) : (s.memWrite k v).mode = s.mode := rfl
@[simp] theorem State.memWrite_acc (s : State) (k : Nat) (v : Byte) : (s.memWrite k v).acc = s.acc := rfl
@[simp] theorem State.memWrite_fOp (s : State) (k : Nat) (v : Byte) : (s.memWrite k v).fOp = s.fOp := rfl
@[simp] theorem State.memWrite_fSid (s : State) (k : Nat) (v : Byte) : (s.memWrite k v).fSid = s.fSid := rfl
@[simp] theorem State.memWrite_fVal (s : State) (k : Nat) (v : Byte) : (s.memWrite k v).fVal = s.fVal := rfl
@[simp] theorem State.memWrite_fCoerced (s : State) (k : Nat) (v : Byte) : (s.memWrite k v).fCoerced = s.fCoerced := rfl
@[simp] theorem State.memWrite_fLen (s : State) (k : Nat) (v : Byte) : (s.memWrite k v).fLen = s.fLen := rfl
@[simp] theorem State.memWrite_fIdx (s : State) (k : Nat) (v : Byte) : (s.memWrite k v).fIdx = s.fIdx := rfl
@[simp] theorem State.memWrite_vLen (s : State) (k : Nat) (v : Byte) : (s.memWrite k v).vLen = s.vLen := rfl
@[simp] theorem State.memWrite_vOvf (s : State) (k : Nat) (v : Byte) : (s.memWrite k v).vOvf = s.vOvf := rfl
@[simp] theorem State.memWrite_fb (s : State) (k : Nat) (v : Byte) : (s.memWrite k v).fb = fbSet s.fb k v := rfl
@[simp] theorem State.memWrite_dLen (s : State) (k : Nat) (v : Byte) : (s.memWrite k v).dLen = s.dLen := rfl
@[simp] theorem State.memWrite_dCur (s : State) (k : Nat) (v : Byte) : (s.memWrite k v).dCur = s.dCur := rfl
@[simp] theorem State.memWrite_offered (s : State) (k : Nat) (v : Byte) : (s.memWrite k v).offered = s.offered := rfl
@[simp] theorem State.memWrite_emitted (s : State) (k : Nat) (v : Byte) : (s.memWrite k v).emitted = s.emitted := rfl

/-! ### State.startChecksum -/

@[simp] theorem State.startChecksum_cfg (s : State) (m : Bool) : (s.startChecksum m).cfg = s.cfg := rfl
@[simp] theorem State.startChecksum_rst (s : State) (m : Bool) : (s.startChecksum m).rst = s.rst := rfl
@[simp] theorem State.startChecksum_phase (s : State) (m : Bool) : (s.startChecksum m).phase = s.phase := rfl
@[simp] theorem State.startChecksum_mode (s : State) (m : Bool) : (s.startChecksum m).mode = m := rfl
@[simp] theorem State.startChecksum_acc (s : State) (m : Bool) : (s.startChecksum m).acc = 0 := rfl
@[simp] theorem State.startChecksum_fOp (s : State) (m : Bool) : (s.startChecksum m).fOp = s.fOp := rfl
@[simp] theorem State.startChecksum_fSid (s : State) (m : Bool) : (s.startChecksum m).fSid = s.fSid := rfl
@[simp] theorem State.startChecksum_fVal (s : State) (m : Bool) : (s.startChecksum m).fVal = s.fVal := rfl
@[simp] theorem State.startChecksum_fCoerced (s : State) (m : Bool) : (s.startChecksum m).fCoerced = s.fCoerced := rfl
@[simp] theorem State.startChecksum_fLen (s : State) (m : Bool) : (s.startChecksum m).fLen = s.fLen := rfl
@[simp] theorem State.startChecksum_fIdx (s : State) (m : Bool) : (s.startChecksum m).fIdx = s.fIdx := rfl
@[simp] theorem State.startChecksum_vLen (s : State) (m : Bool) : (s.startChecksum m).vLen = s.vLen := rfl
@[simp] theorem State.startChecksum_vOvf (s : State) (m : Bool) : (s.startChecksum m).vOvf = s.vOvf := rfl
@[simp] theorem State.startChecksum_fb (s : State) (m : Bool) : (s.startChecksum m).fb = s.fb := rfl
@[simp] theorem State.startChecksum_dLen (s : State) (m : Bool) : (s.startChecksum m).dLen = s.dLen := rfl
@[simp] theorem State.startChecksum_dCur (s : State) (m : Bool) : (s.startChecksum m).dCur = s.dCur := rfl
@[simp] theorem State.startChecksum_offered (s : State) (m : Bool) : (s.startChecksum m).offered = s.offered := rfl
@[simp] theorem State.startChecksum_emitted (s : State) (m : Bool) : (s.startChecksum m).emitted = s.emitted := rfl

/-! ### State.absorb -/

@[simp] theorem State.absorb_cfg (s : State) (b : Byte) : (s.absorb b).cfg = s.cfg := rfl
@[simp] theorem State.absorb_rst (s : State) (b : Byte) : (s.absorb b).rst = s.rst := rfl
@[simp] theorem State.absorb_phase (s : State) (b : Byte) : (s.absorb b).phase = s.phase := rfl
@[simp] theorem State.absorb_mode (s : State) (b : Byte) : (s.absorb b).mode = s.mode := rfl
@[simp] theorem State.absorb_acc (s : State) (b : Byte) : (s.absorb b).acc = s.acc ^^^ b := rfl
@[simp] theorem State.absorb_fOp (s : State) (b : Byte) : (s.absorb b).fOp = s.fOp := rfl
@[simp] theorem State.absorb_fSid (s : State) (b : Byte) : (s.absorb b).fSid = s.fSid := rfl
@[simp] theorem State.absorb_fVal (s : State) (b : Byte) : (s.absorb b).fVal = s.fVal := rfl
@[simp] theorem State.absorb_fCoerced (s : State) (b : Byte) : (s.absorb b).fCoerced = s.fCoerced := rfl
@[simp] theorem State.absorb_fLen (s : State) (b : Byte) : (s.absorb b).fLen = s.fLen := rfl
@[simp] theorem State.absorb_fIdx (s : State) (b : Byte) : (s.absorb b).fIdx = s.fIdx := rfl
@[simp] theorem State.absorb_vLen (s : State) (b : Byte) : (s.absorb b).vLen = s.vLen := rfl
@[simp] theorem State.absorb_vOvf (s : State) (b : Byte) : (s.absorb b).vOvf = s.vOvf := rfl
@[simp] theorem State.absorb_fb (s : State) (b : Byte) : (s.absorb b).fb = s.fb := rfl
@[simp] theorem State.absorb_dLen (s : State) (b : Byte) : (s.absorb b).dLen = s.dLen := rfl
@[simp] theorem State.absorb_dCur (s : State) (b : Byte) : (s.absorb b).dCur = s.dCur := rfl
@[simp] theorem State.absorb_offered (s : State) (b : Byte) : (s.absorb b).offered = s.offered := rfl
@[simp] theorem State.absorb_emitted (s : State) (b : Byte) : (s.absorb b).emitted = s.emitted := rfl

/-! ### State.checksumSequence -/

@[simp] theorem State.checksumSequence_cfg (s : State) (m : Bool) (bs : List Byte) : (s.checksumSequence m bs).cfg = s.cfg := rfl
@[simp] theorem State.checksumSequence_rst (s : State) (m : Bool) (bs : List Byte) : (s.checksumSequence m bs).rst = s.rst := rfl
@[simp] theorem State.checksumSequence_phase (s : State) (m : Bool) (bs : List Byte) : (s.checksumSequence m bs).phase = s.phase := rfl
@[simp] theorem State.checksumSequence_mode (s : State) (m : Bool) (bs : List Byte) : (s.checksumSequence m bs).mode = m := rfl
@[simp] theorem State.checksumSequence_acc (s : State) (m : Bool) (bs : List Byte) : (s.checksumSequence m bs).acc = xorFold bs := rfl
@[simp] theorem State.checksumSequence_fOp (s : State) (m : Bool) (bs : List Byte) : (s.checksumSequence m bs).fOp = s.fOp := rfl
@[simp] theorem State.checksumSequence_fSid (s : State) (m : Bool) (bs : List Byte) : (s.checksumSequence m bs).fSid = s.fSid := rfl
@[simp] theorem State.checksumSequence_fVal (s : State) (m : Bool) (bs : List Byte) : (s.checksumSequence m bs).fVal = s.fVal := rfl
@[simp] theorem State.checksumSequence_fCoerced (s : State) (m : Bool) (bs : List Byte) : (s.checksumSequence m bs).fCoerced = s.fCoerced := rfl
@[simp] theorem State.checksumSequence_fLen (s : State) (m : Bool) (bs : List Byte) : (s.checksumSequence m bs).fLen = s.fLen := rfl
@[simp] theorem State.checksumSequence_fIdx (s : State) (m : Bool) (bs : List Byte) : (s.checksumSequence m bs).fIdx = s.fIdx := rfl
@[simp] theorem State.checksumSequence_vLen (s : State) (m : Bool) (bs : List Byte) : (s.checksumSequence m bs).vLen = s.vLen := rfl
@[simp] theorem State.checksumSequence_vOvf (s : State) (m : Bool) (bs : List Byte) : (s.checksumSequence m bs).vOvf = s.vOvf := rfl
@[simp] theorem State.checksumSequence_fb (s : State) (m : Bool) (bs : List Byte) : (s.checksumSequence m bs).fb = s.fb := rfl
@[simp] theorem State.checksumSequence_dLen (s : State) (m : Bool) (bs : List Byte) : (s.checksumSequence m bs).dLen = s.dLen := rfl
@[simp] theorem State.checksumSequence_dCur (s : State) (m : Bool) (bs : List Byte) : (s.checksumSequence m bs).dCur = s.dCur := rfl
@[simp] theorem State.checksumSequence_offered (s : State) (m : Bool) (bs : List Byte) : (s.checksumSequence m bs).offered = s.offered := rfl
@[simp] theorem State.checksumSequence_emitted (s : State) (m : Bool) (bs : List Byte) : (s.checksumSequence m bs).emitted = s.emitted := rfl

/-! ### State.sendCommand -/

@[simp] theorem State.sendCommand_cfg (s : State) (op : BitVec 2) (sid : Byte) (val : BitVec 32) (c : Bool) (body : List Byte) : (s.sendCommand op sid val c body).cfg = s.cfg := rfl
@[simp] theorem State.sendCommand_rst (s : State) (op : BitVec 2) (sid : Byte) (val : BitVec 32) (c : Bool) (body : List Byte) : (s.sendCommand op sid val c body).rst = s.rst := rfl
@[simp] theorem State.sendCommand_phase (s : State) (op : BitVec 2) (sid : Byte) (val : BitVec 32) (c : Bool) (body : List Byte) : (s.sendCommand op sid val c body).phase = .idle := rfl
@[simp] theorem State.sendCommand_mode (s : State) (op : BitVec 2) (sid : Byte) (val : BitVec 32) (c : Bool) (body : List Byte) : (s.sendCommand op sid val c body).mode = true := rfl
@[simp] theorem State.sendCommand_acc (s : State) (op : BitVec 2) (sid : Byte) (val : BitVec 32) (c : Bool) (body : List Byte) : (s.sendCommand op sid val c body).acc = xorFold body := rfl
@[simp] theorem State.sendCommand_fOp (s : State) (op : BitVec 2) (sid : Byte) (val : BitVec 32) (c : Bool) (body : List Byte) : (s.sendCommand op sid val c body).fOp = op := rfl
@[simp] theorem State.sendCommand_fSid (s : State) (op : BitVec 2) (sid : Byte) (val : BitVec 32) (c : Bool) (body : List Byte) : (s.sendCommand op sid val c body).fSid = sid := rfl
@[simp] theorem State.sendCommand_fVal (s : State) (op : BitVec 2) (sid : Byte) (val : BitVec 32) (c : Bool) (body : List Byte) : (s.sendCommand op sid val c body).fVal = val := rfl
@[simp] theorem State.sendCommand_fCoerced (s : State) (op : BitVec 2) (sid : Byte) (val : BitVec 32) (c : Bool) (body : List Byte) : (s.sendCommand op sid val c body).fCoerced = c := rfl
@[simp] theorem State.sendCommand_fLen (s : State) (op : BitVec 2) (sid : Byte) (val : BitVec 32) (c : Bool) (body : List Byte) : (s.sendCommand op sid val c body).fLen = BitVec.ofNat 4 body.length := rfl
@[simp] theorem State.sendCommand_fIdx (s : State) (op : BitVec 2) (sid : Byte) (val : BitVec 32) (c : Bool) (body : List Byte) : (s.sendCommand op sid val c body).fIdx = BitVec.ofNat 4 body.length := rfl
@[simp] theorem State.sendCommand_vLen (s : State) (op : BitVec 2) (sid : Byte) (val : BitVec 32) (c : Bool) (body : List Byte) : (s.sendCommand op sid val c body).vLen = s.vLen := rfl
@[simp] theorem State.sendCommand_vOvf (s : State) (op : BitVec 2) (sid : Byte) (val : BitVec 32) (c : Bool) (body : List Byte) : (s.sendCommand op sid val c body).vOvf = s.vOvf := rfl
@[simp] theorem State.sendCommand_fb (s : State) (op : BitVec 2) (sid : Byte) (val : BitVec 32) (c : Bool) (body : List Byte) : (s.sendCommand op sid val c body).fb = s.fb := rfl
@[simp] theorem State.sendCommand_dLen (s : State) (op : BitVec 2) (sid : Byte) (val : BitVec 32) (c : Bool) (body : List Byte) : (s.sendCommand op sid val c body).dLen = s.dLen := rfl
@[simp] theorem State.sendCommand_dCur (s : State) (op : BitVec 2) (sid : Byte) (val : BitVec 32) (c : Bool) (body : List Byte) : (s.sendCommand op sid val c body).dCur = s.dCur := rfl
@[simp] theorem State.sendCommand_offered (s : State) (op : BitVec 2) (sid : Byte) (val : BitVec 32) (c : Bool) (body : List Byte) : (s.sendCommand op sid val c body).offered = s.offered := rfl
@[simp] theorem State.sendCommand_emitted (s : State) (op : BitVec 2) (sid : Byte) (val : BitVec 32) (c : Bool) (body : List Byte) : (s.sendCommand op sid val c body).emitted = s.emitted ++ (frameEvents body ++ [.cst c]) := rfl

/-! ### State.acceptCommand -/

@[simp] theorem State.acceptCommand_cfg (s : State) (op : BitVec 2) (sid : Byte) (arg : Arg) : (s.acceptCommand op sid arg).cfg = s.cfg := rfl
@[simp] theorem State.acceptCommand_rst (s : State) (op : BitVec 2) (sid : Byte) (arg : Arg) : (s.acceptCommand op sid arg).rst = s.rst := rfl
@[simp] theorem State.acceptCommand_phase (s : State) (op : BitVec 2) (sid : Byte) (arg : Arg) : (s.acceptCommand op sid arg).phase = .framing := rfl
@[simp] theorem State.acceptCommand_mode (s : State) (op : BitVec 2) (sid : Byte) (arg : Arg) : (s.acceptCommand op sid arg).mode = true := rfl
@[simp] theorem State.acceptCommand_acc (s : State) (op : BitVec 2) (sid : Byte) (arg : Arg) : (s.acceptCommand op sid arg).acc = 0 := rfl
@[simp] theorem State.acceptCommand_fOp (s : State) (op : BitVec 2) (sid : Byte) (arg : Arg) : (s.acceptCommand op sid arg).fOp = op := rfl
@[simp] theorem State.acceptCommand_fSid (s : State) (op : BitVec 2) (sid : Byte) (arg : Arg) : (s.acceptCommand op sid arg).fSid = sid := rfl
@[simp] theorem State.acceptCommand_fVal (s : State) (op : BitVec 2) (sid : Byte) (arg : Arg) : (s.acceptCommand op sid arg).fVal = latchedValue op arg := rfl
@[simp] theorem State.acceptCommand_fCoerced (s : State) (op : BitVec 2) (sid : Byte) (arg : Arg) : (s.acceptCommand op sid arg).fCoerced = latchedCoerced op arg := rfl
@[simp] theorem State.acceptCommand_fLen (s : State) (op : BitVec 2) (sid : Byte) (arg : Arg) : (s.acceptCommand op sid arg).fLen = bodyLength op := rfl
@[simp] theorem State.acceptCommand_fIdx (s : State) (op : BitVec 2) (sid : Byte) (arg : Arg) : (s.acceptCommand op sid arg).fIdx = 0 := rfl
@[simp] theorem State.acceptCommand_vLen (s : State) (op : BitVec 2) (sid : Byte) (arg : Arg) : (s.acceptCommand op sid arg).vLen = s.vLen := rfl
@[simp] theorem State.acceptCommand_vOvf (s : State) (op : BitVec 2) (sid : Byte) (arg : Arg) : (s.acceptCommand op sid arg).vOvf = s.vOvf := rfl
@[simp] theorem State.acceptCommand_fb (s : State) (op : BitVec 2) (sid : Byte) (arg : Arg) : (s.acceptCommand op sid arg).fb = s.fb := rfl
@[simp] theorem State.acceptCommand_dLen (s : State) (op : BitVec 2) (sid : Byte) (arg : Arg) : (s.acceptCommand op sid arg).dLen = s.dLen := rfl
@[simp] theorem State.acceptCommand_dCur (s : State) (op : BitVec 2) (sid : Byte) (arg : Arg) : (s.acceptCommand op sid arg).dCur = s.dCur := rfl
@[simp] theorem State.acceptCommand_offered (s : State) (op : BitVec 2) (sid : Byte) (arg : Arg) : (s.acceptCommand op sid arg).offered = s.offered := rfl
@[simp] theorem State.acceptCommand_emitted (s : State) (op : BitVec 2) (sid : Byte) (arg : Arg) : (s.acceptCommand op sid arg).emitted = s.emitted := rfl

/-! ### State.sendBodyByte -/

@[simp] theorem State.sendBodyByte_cfg (s : State) (b : Byte) : (s.sendBodyByte b).cfg = s.cfg := rfl
@[simp] theorem State.sendBodyByte_rst (s : State) (b : Byte) : (s.sendBodyByte b).rst = s.rst := rfl
@[simp] theorem State.sendBodyByte_phase (s : State) (b : Byte) : (s.sendBodyByte b).phase = s.phase := rfl
@[simp] theorem State.sendBodyByte_mode (s : State) (b : Byte) : (s.sendBodyByte b).mode = s.mode := rfl
@[simp] theorem State.sendBodyByte_acc (s : State) (b : Byte) : (s.sendBodyByte b).acc = s.acc ^^^ b := rfl
@[simp] theorem State.sendBodyByte_fOp (s : State) (b : Byte) : (s.sendBodyByte b).fOp = s.fOp := rfl
@[simp] theorem State.sendBodyByte_fSid (s : State) (b : Byte) : (s.sendBodyByte b).fSid = s.fSid := rfl
@[simp] theorem State.sendBodyByte_fVal (s : State) (b : Byte) : (s.sendBodyByte b).fVal = s.fVal := rfl
@[simp] theorem State.sendBodyByte_fCoerced (s : State) (b : Byte) : (s.sendBodyByte b).fCoerced = s.fCoerced := rfl
@[simp] theorem State.sendBodyByte_fLen (s : State) (b : Byte) : (s.sendBodyByte b).fLen = s.fLen := rfl
@[simp] theorem State.sendBodyByte_fIdx (s : State) (b : Byte) : (s.sendBodyByte b).fIdx = s.fIdx + 1 := rfl
@[simp] theorem State.sendBodyByte_vLen (s : State) (b : Byte) : (s.sendBodyByte b).vLen = s.vLen := rfl
@[simp] theorem State.sendBodyByte_vOvf (s : State) (b : Byte) : (s.sendBodyByte b).vOvf = s.vOvf := rfl
@[simp] theorem State.sendBodyByte_fb (s : State) (b : Byte) : (s.sendBodyByte b).fb = s.fb := rfl
@[simp] theorem State.sendBodyByte_dLen (s : State) (b : Byte) : (s.sendBodyByte b).dLen = s.dLen := rfl
@[simp] theorem State.sendBodyByte_dCur (s : State) (b : Byte) : (s.sendBodyByte b).dCur = s.dCur := rfl
@[simp] theorem State.sendBodyByte_offered (s : State) (b : Byte) : (s.sendBodyByte b).offered = s.offered := rfl
@[simp] theorem State.sendBodyByte_emitted (s : State) (b : Byte) : (s.sendBodyByte b).emitted = s.emitted ++ [.tx b false] := rfl

/-! ### State.sendChecksumByte -/

@[simp] theorem State.sendChecksumByte_cfg (s : State) : s.sendChecksumByte.cfg = s.cfg := rfl
@[simp] theorem State.sendChecksumByte_rst (s : State) : s.sendChecksumByte.rst = s.rst := rfl
@[simp] theorem State.sendChecksumByte_phase (s : State) : s.sendChecksumByte.phase = .idle := rfl
@[simp] theorem State.sendChecksumByte_mode (s : State) : s.sendChecksumByte.mode = s.mode := rfl
@[simp] theorem State.sendChecksumByte_acc (s : State) : s.sendChecksumByte.acc = s.acc := rfl
@[simp] theorem State.sendChecksumByte_fOp (s : State) : s.sendChecksumByte.fOp = s.fOp := rfl
@[simp] theorem State.sendChecksumByte_fSid (s : State) : s.sendChecksumByte.fSid = s.fSid := rfl
@[simp] theorem State.sendChecksumByte_fVal (s : State) : s.sendChecksumByte.fVal = s.fVal := rfl
@[simp] theorem State.sendChecksumByte_fCoerced (s : State) : s.sendChecksumByte.fCoerced = s.fCoerced := rfl
@[simp] theorem State.sendChecksumByte_fLen (s : State) : s.sendChecksumByte.fLen = s.fLen := rfl
@[simp] theorem State.sendChecksumByte_fIdx (s : State) : s.sendChecksumByte.fIdx = s.fIdx := rfl
@[simp] theorem State.sendChecksumByte_vLen (s : State) : s.sendChecksumByte.vLen = s.vLen := rfl
@[simp] theorem State.sendChecksumByte_vOvf (s : State) : s.sendChecksumByte.vOvf = s.vOvf := rfl
@[simp] theorem State.sendChecksumByte_fb (s : State) : s.sendChecksumByte.fb = s.fb := rfl
@[simp] theorem State.sendChecksumByte_dLen (s : State) : s.sendChecksumByte.dLen = s.dLen := rfl
@[simp] theorem State.sendChecksumByte_dCur (s : State) : s.sendChecksumByte.dCur = s.dCur := rfl
@[simp] theorem State.sendChecksumByte_offered (s : State) : s.sendChecksumByte.offered = s.offered := rfl
@[simp] theorem State.sendChecksumByte_emitted (s : State) : s.sendChecksumByte.emitted = s.emitted ++ [.tx (s.acc ^^^ outboundConstant) true, .cst s.fCoerced] := rfl

/-! ### State.frameStart -/

@[simp] theorem State.frameStart_cfg (s : State) : s.frameStart.cfg = s.cfg := rfl
@[simp] theorem State.frameStart_rst (s : State) : s.frameStart.rst = s.rst := rfl
@[simp] theorem State.frameStart_phase (s : State) : s.frameStart.phase = .receiving := rfl
@[simp] theorem State.frameStart_mode (s : State) : s.frameStart.mode = false := rfl
@[simp] theorem State.frameStart_acc (s : State) : s.frameStart.acc = 0 := rfl
@[simp] theorem State.frameStart_fOp (s : State) : s.frameStart.fOp = s.fOp := rfl
@[simp] theorem State.frameStart_fSid (s : State) : s.frameStart.fSid = s.fSid := rfl
@[simp] theorem State.frameStart_fVal (s : State) : s.frameStart.fVal = s.fVal := rfl
@[simp] theorem State.frameStart_fCoerced (s : State) : s.frameStart.fCoerced = s.fCoerced := rfl
@[simp] theorem State.frameStart_fLen (s : State) : s.frameStart.fLen = s.fLen := rfl
@[simp] theorem State.frameStart_fIdx (s : State) : s.frameStart.fIdx = s.fIdx := rfl
@[simp] theorem State.frameStart_vLen (s : State) : s.frameStart.vLen = 0 := rfl
@[simp] theorem State.frameStart_vOvf (s : State) : s.frameStart.vOvf = false := rfl
@[simp] theorem State.frameStart_fb (s : State) : s.frameStart.fb = s.fb := rfl
@[simp] theorem State.frameStart_dLen (s : State) : s.frameStart.dLen = s.dLen := rfl
@[simp] theorem State.frameStart_dCur (s : State) : s.frameStart.dCur = s.dCur := rfl
@[simp] theorem State.frameStart_offered (s : State) : s.frameStart.offered = s.offered := rfl
@[simp] theorem State.frameStart_emitted (s : State) : s.frameStart.emitted = s.emitted := rfl

/-! ### State.decodeStart -/

@[simp] theorem State.decodeStart_cfg (s : State) : s.decodeStart.cfg = s.cfg := rfl
@[simp] theorem State.decodeStart_rst (s : State) : s.decodeStart.rst = s.rst := rfl
@[simp] theorem State.decodeStart_phase (s : State) : s.decodeStart.phase = .decoding := rfl
@[simp] theorem State.decodeStart_mode (s : State) : s.decodeStart.mode = s.mode := rfl
@[simp] theorem State.decodeStart_acc (s : State) : s.decodeStart.acc = s.acc := rfl
@[simp] theorem State.decodeStart_fOp (s : State) : s.decodeStart.fOp = s.fOp := rfl
@[simp] theorem State.decodeStart_fSid (s : State) : s.decodeStart.fSid = s.fSid := rfl
@[simp] theorem State.decodeStart_fVal (s : State) : s.decodeStart.fVal = s.fVal := rfl
@[simp] theorem State.decodeStart_fCoerced (s : State) : s.decodeStart.fCoerced = s.fCoerced := rfl
@[simp] theorem State.decodeStart_fLen (s : State) : s.decodeStart.fLen = s.fLen := rfl
@[simp] theorem State.decodeStart_fIdx (s : State) : s.decodeStart.fIdx = s.fIdx := rfl
@[simp] theorem State.decodeStart_vLen (s : State) : s.decodeStart.vLen = s.vLen := rfl
@[simp] theorem State.decodeStart_vOvf (s : State) : s.decodeStart.vOvf = s.vOvf := rfl
@[simp] theorem State.decodeStart_fb (s : State) : s.decodeStart.fb = s.fb := rfl
@[simp] theorem State.decodeStart_dLen (s : State) : s.decodeStart.dLen = s.vLen - 1 := rfl
@[simp] theorem State.decodeStart_dCur (s : State) : s.decodeStart.dCur = min 1 (s.vLen - 1) := rfl
@[simp] theorem State.decodeStart_offered (s : State) : s.decodeStart.offered = s.offered := rfl
@[simp] theorem State.decodeStart_emitted (s : State) : s.decodeStart.emitted = s.emitted := rfl

/-! ### State.decodeWhole -/

@[simp] theorem State.decodeWhole_cfg (s : State) (P : List Byte) : (s.decodeWhole P).cfg = s.cfg := rfl
@[simp] theorem State.decodeWhole_rst (s : State) (P : List Byte) : (s.decodeWhole P).rst = s.rst := rfl
@[simp] theorem State.decodeWhole_phase (s : State) (P : List Byte) : (s.decodeWhole P).phase = .idle := rfl
@[simp] theorem State.decodeWhole_mode (s : State) (P : List Byte) : (s.decodeWhole P).mode = s.mode := rfl
@[simp] theorem State.decodeWhole_acc (s : State) (P : List Byte) : (s.decodeWhole P).acc = s.acc := rfl
@[simp] theorem State.decodeWhole_fOp (s : State) (P : List Byte) : (s.decodeWhole P).fOp = s.fOp := rfl
@[simp] theorem State.decodeWhole_fSid (s : State) (P : List Byte) : (s.decodeWhole P).fSid = s.fSid := rfl
@[simp] theorem State.decodeWhole_fVal (s : State) (P : List Byte) : (s.decodeWhole P).fVal = s.fVal := rfl
@[simp] theorem State.decodeWhole_fCoerced (s : State) (P : List Byte) : (s.decodeWhole P).fCoerced = s.fCoerced := rfl
@[simp] theorem State.decodeWhole_fLen (s : State) (P : List Byte) : (s.decodeWhole P).fLen = s.fLen := rfl
@[simp] theorem State.decodeWhole_fIdx (s : State) (P : List Byte) : (s.decodeWhole P).fIdx = s.fIdx := rfl
@[simp] theorem State.decodeWhole_vLen (s : State) (P : List Byte) : (s.decodeWhole P).vLen = s.vLen := rfl
@[simp] theorem State.decodeWhole_vOvf (s : State) (P : List Byte) : (s.decodeWhole P).vOvf = s.vOvf := rfl
@[simp] theorem State.decodeWhole_fb (s : State) (P : List Byte) : (s.decodeWhole P).fb = s.fb := rfl
@[simp] theorem State.decodeWhole_dLen (s : State) (P : List Byte) : (s.decodeWhole P).dLen = P.length := rfl
@[simp] theorem State.decodeWhole_dCur (s : State) (P : List Byte) : (s.decodeWhole P).dCur = (decodeRun P).2 := rfl
@[simp] theorem State.decodeWhole_offered (s : State) (P : List Byte) : (s.decodeWhole P).offered = s.offered := rfl
@[simp] theorem State.decodeWhole_emitted (s : State) (P : List Byte) : (s.decodeWhole P).emitted = s.emitted ++ (decodeRun P).1.map OutEvent.ev := rfl

/-! ### State.holdReset -/

@[simp] theorem State.holdReset_cfg (s : State) : s.holdReset.cfg = s.cfg := rfl
@[simp] theorem State.holdReset_rst (s : State) : s.holdReset.rst = s.rst := rfl
@[simp] theorem State.holdReset_phase (s : State) : s.holdReset.phase = State.reset.phase := rfl
@[simp] theorem State.holdReset_mode (s : State) : s.holdReset.mode = State.reset.mode := rfl
@[simp] theorem State.holdReset_acc (s : State) : s.holdReset.acc = State.reset.acc := rfl
@[simp] theorem State.holdReset_fOp (s : State) : s.holdReset.fOp = State.reset.fOp := rfl
@[simp] theorem State.holdReset_fSid (s : State) : s.holdReset.fSid = State.reset.fSid := rfl
@[simp] theorem State.holdReset_fVal (s : State) : s.holdReset.fVal = State.reset.fVal := rfl
@[simp] theorem State.holdReset_fCoerced (s : State) : s.holdReset.fCoerced = State.reset.fCoerced := rfl
@[simp] theorem State.holdReset_fLen (s : State) : s.holdReset.fLen = State.reset.fLen := rfl
@[simp] theorem State.holdReset_fIdx (s : State) : s.holdReset.fIdx = State.reset.fIdx := rfl
@[simp] theorem State.holdReset_vLen (s : State) : s.holdReset.vLen = State.reset.vLen := rfl
@[simp] theorem State.holdReset_vOvf (s : State) : s.holdReset.vOvf = State.reset.vOvf := rfl
@[simp] theorem State.holdReset_fb (s : State) : s.holdReset.fb = State.reset.fb := rfl
@[simp] theorem State.holdReset_dLen (s : State) : s.holdReset.dLen = State.reset.dLen := rfl
@[simp] theorem State.holdReset_dCur (s : State) : s.holdReset.dCur = State.reset.dCur := rfl
@[simp] theorem State.holdReset_offered (s : State) : s.holdReset.offered = s.offered := rfl
@[simp] theorem State.holdReset_emitted (s : State) : s.holdReset.emitted = s.emitted := rfl

end Sys2Proof.Machine
end

