-- ==== Sys2Proof/Laws/Memory.lean ====
section
/-! SUPPORT. The frame buffer: read after write, other cells, the canonical form, and runs of cells. -/

namespace Sys2Proof.Machine

open Sys2Proof

@[simp] theorem fbGet_nil (k : Nat) : fbGet [] k = none := rfl

theorem fbGet_fbSet_same (m : Memory) (k : Nat) (v : Byte) : fbGet (fbSet m k v) k = some v := by
  induction m with
  | nil => simp [fbSet, fbGet]
  | cons c m ih =>
    obtain ⟨a, b⟩ := c
    simp only [fbSet]
    split
    · simp [fbGet]
    · split
      · simp [fbGet]
      · simp [fbGet, *]

theorem fbGet_fbSet_other (m : Memory) {k j : Nat} (v : Byte) (h : j ≠ k) :
    fbGet (fbSet m k v) j = fbGet m j := by
  induction m with
  | nil => simp [fbSet, fbGet, h]
  | cons c m ih =>
    obtain ⟨a, b⟩ := c
    simp only [fbSet]
    split
    · simp [fbGet, h]
    · split
      · subst_vars
        simp [fbGet, h]
      · simp only [fbGet, ih]

theorem mem_fbSet {m : Memory} {k : Nat} {v : Byte} {c : Host.Cell} (h : c ∈ fbSet m k v) :
    c = (k, v) ∨ c ∈ m := by
  induction m with
  | nil => simpa [fbSet] using h
  | cons d m ih =>
    obtain ⟨a, b⟩ := d
    simp only [fbSet] at h
    split at h
    · simpa using h
    · split at h
      · rcases List.mem_cons.1 h with h | h
        · exact .inl h
        · exact .inr (List.mem_cons_of_mem _ h)
      · rcases List.mem_cons.1 h with h | h
        · exact .inr (by simp [h])
        · exact (ih h).imp_right (List.mem_cons_of_mem _)

/-- A write keeps the canonical form. -/
theorem Memory.wf_fbSet {m : Memory} (h : Memory.wf m) (k : Nat) (v : Byte) : Memory.wf (fbSet m k v) := by
  induction m with
  | nil => simp [fbSet, Memory.wf]
  | cons d m ih =>
    obtain ⟨a, b⟩ := d
    have h' := List.pairwise_cons.1 h
    simp only [fbSet]
    split
    · rename_i hk
      refine List.pairwise_cons.2 ⟨fun c hc => ?_, h⟩
      rcases List.mem_cons.1 hc with rfl | hc
      · exact hk
      · exact Nat.lt_trans hk (h'.1 c hc)
    · split
      · rename_i hk
        subst hk
        exact List.pairwise_cons.2 ⟨h'.1, h'.2⟩
      · rename_i h1 h2
        refine List.pairwise_cons.2 ⟨fun c hc => ?_, ih h'.2⟩
        rcases mem_fbSet hc with rfl | hc
        · simp only; omega
        · exact h'.1 c hc

/-- A write inside the capacity keeps every cell inside it. -/
theorem inside_fbSet {m : Memory} {n : Nat} (h : ∀ c ∈ m, c.1 < n) {k : Nat} (hk : k < n) (v : Byte) :
    ∀ c ∈ fbSet m k v, c.1 < n := fun c hc => by
  rcases mem_fbSet hc with rfl | hc
  · exact hk
  · exact h c hc

/-! ### Runs of cells -/

@[simp] theorem readCells_zero (m : Memory) (a : Nat) : readCells m a 0 = .ok [] := rfl

/-- A run is read when its first cell and the rest are. -/
theorem readCells_succ_ok {m : Memory} {a n : Nat} {bs : List Byte} :
    readCells m a (n + 1) = .ok bs ↔ ∃ b cs, fbGet m a = some b ∧ readCells m (a + 1) n = .ok cs ∧ bs = b :: cs := by
  simp only [readCells]
  cases fbGet m a with
  | none => simp
  | some b =>
    cases readCells m (a + 1) n with
    | ok cs => simp [eq_comm]
    | error f => simp

theorem readCells_length {m : Memory} {a n : Nat} {bs : List Byte} (h : readCells m a n = .ok bs) : bs.length = n := by
  induction n generalizing a bs with
  | zero => simp at h; simp [← h]
  | succ n ih =>
    obtain ⟨b, cs, -, h2, rfl⟩ := readCells_succ_ok.1 h
    simp [ih h2]

/-- Every byte of a run that was read stands in its cell. -/
theorem readCells_get {m : Memory} {a n : Nat} {bs : List Byte} (h : readCells m a n = .ok bs) {i : Nat} (hi : i < n) :
    fbGet m (a + i) = bs[i]? := by
  induction n generalizing a bs i with
  | zero => omega
  | succ n ih =>
    obtain ⟨b, cs, h1, h2, rfl⟩ := readCells_succ_ok.1 h
    cases i with
    | zero => simpa using h1
    | succ i =>
      have := ih h2 (i := i) (by omega)
      rw [show a + (i + 1) = a + 1 + i by omega, this]
      simp

/-- A run is read as soon as each of its cells holds the byte. -/
theorem readCells_of_get {m : Memory} {a : Nat} {bs : List Byte}
    (h : ∀ i, i < bs.length → fbGet m (a + i) = bs[i]?) : readCells m a bs.length = .ok bs := by
  induction bs generalizing a with
  | nil => rfl
  | cons b bs ih =>
    refine readCells_succ_ok.2 ⟨b, bs, by simpa using h 0 (by simp), ih fun i hi => ?_, rfl⟩
    have := h (i + 1) (by simpa using hi)
    rw [show a + 1 + i = a + (i + 1) by omega, this]
    simp

/-- Two runs, one after the other. -/
theorem readCells_add {m : Memory} {a n k : Nat} {bs cs : List Byte} (h : readCells m a n = .ok bs)
    (h' : readCells m (a + n) k = .ok cs) : readCells m a (n + k) = .ok (bs ++ cs) := by
  induction n generalizing a bs with
  | zero =>
    simp at h
    subst h
    simpa using h'
  | succ n ih =>
    obtain ⟨b, ds, h1, h2, rfl⟩ := readCells_succ_ok.1 h
    rw [show n + 1 + k = (n + k) + 1 by omega]
    refine readCells_succ_ok.2 ⟨b, ds ++ cs, h1, ih h2 ?_, by simp⟩
    rwa [show a + 1 + n = a + (n + 1) by omega]

/-- Part of a run that was read is read. -/
theorem readCells_sub {m : Memory} {a n : Nat} {bs : List Byte} (h : readCells m a n = .ok bs) {i k : Nat}
    (hik : i + k ≤ n) : readCells m (a + i) k = .ok ((bs.drop i).take k) := by
  have hl := readCells_length h
  have hlen : ((bs.drop i).take k).length = k := by simp; omega
  rw [← hlen]
  rw [show ((bs.drop i).take ((bs.drop i).take k).length) = (bs.drop i).take k by rw [hlen]]
  refine readCells_of_get fun j hj => ?_
  have hj' : j < k := by omega
  rw [show a + i + j = a + (i + j) by omega, readCells_get h (i := i + j) (by omega)]
  simp [hj']

/-- A write outside a run does not change what is read of it. -/
theorem readCells_fbSet_other (m : Memory) {a n k : Nat} (v : Byte) (h : k < a ∨ a + n ≤ k) :
    readCells (fbSet m k v) a n = readCells m a n := by
  induction n generalizing a with
  | zero => rfl
  | succ n ih =>
    simp only [readCells, ih (a := a + 1) (by omega), fbGet_fbSet_other m v (show a ≠ k by omega)]

/-- The first byte written behind a run lengthens it. -/
theorem readCells_push {m : Memory} {n : Nat} {bs : List Byte} (h : readCells m 0 n = .ok bs) (v : Byte) :
    readCells (fbSet m n v) 0 (n + 1) = .ok (bs ++ [v]) := by
  refine readCells_add (by rwa [readCells_fbSet_other m v (by omega)]) ?_
  simp [readCells, fbGet_fbSet_same]

/-- Storing a run: its cells hold the bytes, every other cell is as before. -/
theorem fbGet_storeBytes (m : Memory) (a : Nat) (bs : List Byte) (j : Nat) :
    fbGet (storeBytes m a bs) j = if a ≤ j ∧ j < a + bs.length then bs[j - a]? else fbGet m j := by
  induction bs generalizing m a with
  | nil =>
    simp only [storeBytes, List.length_nil]
    split <;> first | omega | rfl
  | cons b bs ih =>
    simp only [storeBytes, ih, List.length_cons]
    by_cases hj : j = a
    · subst hj
      simp [fbGet_fbSet_same]
    · rw [fbGet_fbSet_other m b hj]
      by_cases h1 : a + 1 ≤ j ∧ j < a + 1 + bs.length
      · rw [if_pos h1, if_pos (by omega), show j - a = (j - (a + 1)) + 1 by omega]
        simp
      · rw [if_neg h1, if_neg (by omega)]

theorem Memory.wf_storeBytes {m : Memory} (h : Memory.wf m) (a : Nat) (bs : List Byte) :
    Memory.wf (storeBytes m a bs) := by
  induction bs generalizing m a with
  | nil => exact h
  | cons b bs ih => exact ih (Memory.wf_fbSet h a b) (a + 1)

/-- The memory after reset is canonical. -/
theorem Memory.wf_reset : Memory.wf State.reset.fb := List.Pairwise.nil

end Sys2Proof.Machine
end

