-- ==== Sys2Proof/Laws/Ops.lean ====
section
/-! SUPPORT. For each shared operation, once, everything it can do. -/

namespace Sys2Proof.Machine

open Sys2Proof

/-! ### The fold -/

@[simp] theorem xorFold_nil : xorFold [] = 0 := rfl

@[simp] theorem xorFold_cons (b : Byte) (bs : List Byte) : xorFold (b :: bs) = b ^^^ xorFold bs := rfl

/-- Absorbing the bytes one after another, as ACC does. -/
theorem foldl_xor (bs : List Byte) (a : Byte) : bs.foldl (· ^^^ ·) a = a ^^^ xorFold bs := by
  induction bs generalizing a with
  | nil => simp
  | cons b bs ih => simp [ih, BitVec.xor_assoc]

@[simp] theorem ckResult_outbound (a : Byte) : ckResult true a = a ^^^ outboundConstant := rfl

@[simp] theorem ckResult_inbound (a : Byte) : ckResult false a = a := by simp [ckResult]

/-! ### Acceptance -/

theorem whenIdle_idle {s t : State} (h : s.phase = .idle) : whenIdle s t = .next t := if_pos h

theorem whenIdle_busy {s t : State} (h : s.phase ≠ .idle) : whenIdle s t = .next s := if_neg h

theorem whenDecoding_decoding {s t : State} (h : s.phase = .decoding) : whenDecoding s t = .next t := if_pos h

theorem whenDecoding_other {s t : State} (h : s.phase ≠ .decoding) : whenDecoding s t = .next s := if_neg h

/-- An operation of IDLE goes on: with its effect in IDLE, without any elsewhere. -/
theorem whenIdle_next {s t u : State} (h : whenIdle s t = .next u) :
    (s.phase = .idle ∧ u = t) ∨ (s.phase ≠ .idle ∧ u = s) := by
  unfold whenIdle at h
  split at h <;> cases h <;> simp_all

/-- An operation of DECODING goes on: with its effect in DECODING, without any elsewhere. -/
theorem whenDecoding_next {s t u : State} (h : whenDecoding s t = .next u) :
    (s.phase = .decoding ∧ u = t) ∨ (s.phase ≠ .decoding ∧ u = s) := by
  unfold whenDecoding at h
  split at h <;> cases h <;> simp_all

/-! ### The frame buffer's reads and writes -/

/-- A read that answers was legal and every cell of it was written (20 R55). -/
theorem memRead_ok {s : State} {a n : Nat} {bs : List Byte} (h : memRead s a n = .ok bs) :
    a + n ≤ s.dLen ∧ readCells s.fb a n = .ok bs := by
  unfold memRead at h
  split at h
  · exact ⟨‹_›, h⟩
  · cases h

theorem memRead_of_le {s : State} {a n : Nat} (h : a + n ≤ s.dLen) : memRead s a n = readCells s.fb a n := if_pos h

/-- A received byte is stored at V_LEN while there is room (42 R157). -/
theorem storeRx_room {s : State} (b : Byte) (h : s.vLen < s.cfg.nMax) :
    s.storeRx b = { s with acc := s.acc ^^^ b, fb := fbSet s.fb s.vLen b, vLen := s.vLen + 1 } := by
  simp [State.storeRx, bufferFull, h, State.memWrite, State.absorb]

/-- Without room only V_OVF is set (42 R157). -/
theorem storeRx_full {s : State} (b : Byte) (h : ¬ s.vLen < s.cfg.nMax) :
    s.storeRx b = { s with acc := s.acc ^^^ b, vOvf := true } := by
  simp [State.storeRx, bufferFull, h, State.absorb]

/-- The verdict is one of three: mismatch, overflow, decode start, tested in this order (60 R230). -/
theorem verdict_cases (s : State) :
    (s.acc ≠ 0 ∧ s.verdict = s.raise .checksumMismatch 0 0) ∨
      (s.acc = 0 ∧ s.vOvf = true ∧ s.verdict = s.raise .frameOverflow 0 0) ∨
      (s.acc = 0 ∧ s.vOvf = false ∧ s.verdict = s.decodeStart) := by
  by_cases h : s.acc = 0
  · cases h' : s.vOvf <;> simp [State.verdict, checksumRight, h, h']
  · exact .inl ⟨h, if_neg (by simpa [checksumRight] using h)⟩

/-- An RX event is accepted in IDLE and in RECEIVING, and nowhere else (20 R60). -/
theorem rxEvent_cases (s : State) (b : Byte) (last : Bool) :
    (s.phase = .idle ∧ s.rxEvent b last = s.frameStart.receiveByte b last) ∨
      (s.phase = .receiving ∧ s.rxEvent b last = s.receiveByte b last) ∨
      ((s.phase = .framing ∨ s.phase = .decoding) ∧ s.rxEvent b last = s) := by
  cases h : s.phase <;> simp [State.rxEvent, h]

/-! ### The framer -/

theorem op_cases (op : BitVec 2) : op = 0 ∨ op = 1 ∨ op = 2 ∨ op = 3 := by revert op; decide

theorem idx_cases (idx : BitVec 4) (h : idx.toNat < 8) :
    idx = 0 ∨ idx = 1 ∨ idx = 2 ∨ idx = 3 ∨ idx = 4 ∨ idx = 5 ∨ idx = 6 ∨ idx = 7 := by revert idx; decide

/-- The table of 41 R135 holds the body of the latched command, up to its length. -/
theorem bodyByte_eq (op : BitVec 2) (sid : Byte) (val : BitVec 32) (idx : BitVec 4) (h : idx < bodyLength op) :
    bodyByte op sid val idx = (latchedBody op sid val)[idx.toNat]? := by
  have hop := op_cases op
  have hidx : idx.toNat < 8 := by
    rcases hop with rfl | rfl | rfl | rfl <;> simp [bodyLength, BitVec.lt_def] at h <;> omega
  have := idx_cases idx hidx
  rcases hop with rfl | rfl | rfl | rfl <;>
    rcases this with rfl | rfl | rfl | rfl | rfl | rfl | rfl | rfl <;>
    rfl

/-- A step of FRAMING goes on in one of two ways (41 R135, R136). -/
theorem framerStep_next {s t : State} (h : framerStep s = .next t) :
    (s.fIdx = s.fLen ∧ t = s.sendChecksumByte) ∨
      (s.fIdx < s.fLen ∧ ∃ b, bodyByte s.fOp s.fSid s.fVal s.fIdx = some b ∧ t = s.sendBodyByte b) := by
  unfold framerStep at h
  split at h
  · cases h
    exact .inl ⟨‹_›, rfl⟩
  · split at h
    · split at h
      · cases h
        exact .inr ⟨‹_›, _, ‹_›, rfl⟩
      · cases h
    · cases h

/-! ### The decoder -/

/-- One pass over a sensor segment: a READING and a stride, or the end of the frame (43 R176, R177). -/
theorem sensorSegment_cases (s : State) (kind : ReadingKind) (axes : Option Triple) :
    (∃ v, axes = some v ∧
        s.sensorSegment kind axes =
          { s with emitted := s.emitted ++ [.ev (readingOf kind v)], dCur := s.dCur + 7 }) ∨
      (axes = none ∧ s.sensorSegment kind axes = s.raise .truncatedSegment kind.tag s.dCur) := by
  cases axes with
  | none => exact .inr ⟨rfl, rfl⟩
  | some v => exact .inl ⟨v, rfl, rfl⟩

/-- One pass over an enable-ack: an ACK and a clamped stride, or the end of the frame (43 R180, R181). -/
theorem ackSegment_cases (s : State) (ack : Option AckBytes) :
    (∃ a, ack = some a ∧
        s.ackSegment ack =
          { s with emitted := s.emitted ++ [.ev (.ack a.sid a.flag)], dCur := min (s.dCur + 7) s.dLen }) ∨
      (ack = none ∧ s.ackSegment ack = s.raise .truncatedSegment 0x01 s.dCur) := by
  cases ack with
  | none => exact .inr ⟨rfl, rfl⟩
  | some a => exact .inl ⟨a, rfl, rfl⟩

/-- The sensor tags and their kinds (43 R175). -/
theorem sensorKind_eq_some {t : Byte} {kind : ReadingKind} : sensorKind t = some kind ↔ t = kind.tag := by
  cases kind <;> revert t <;> decide

end Sys2Proof.Machine
end

