-- ==== Sys2Proof/Laws/Step.lean ====
section
/-! SUPPORT. What a step can do: which action each phase chooses, and what a fetch at the cursor gives. -/

namespace Sys2Proof.Machine

open Sys2Proof

@[simp] theorem steps_zero (s : State) : steps 0 s = .next s := rfl

theorem steps_succ_of_next {s t : State} (h : step s = .next t) (k : Nat) : steps (k + 1) s = steps k t := by
  simp [steps, h]

theorem steps_add {s t : State} {j : Nat} (h : steps j s = .next t) (k : Nat) : steps (j + k) s = steps k t := by
  induction j generalizing s with
  | zero => simp_all
  | succ j ih =>
    rw [show j + 1 + k = (j + k) + 1 by omega]
    simp only [steps] at h ⊢
    cases hs : step s with
    | next u => rw [hs] at h; exact ih h
    | fault f => rw [hs] at h; cases h
    | refused r => rw [hs] at h; cases h

/-- `steps` is the host's `run` of this machine. -/
theorem steps_eq_run (k : Nat) (s : State) : steps k s = Sys2Proof.core.run k s := by
  induction k generalizing s with
  | zero => rfl
  | succ k ih =>
    simp only [steps, Host.Core.run]
    cases h : step s with
    | next t =>
      have h' : Sys2Proof.core.step s = .next t := h
      rw [h']
      exact ih t
    | fault f =>
      have h' : Sys2Proof.core.step s = .fault f := h
      rw [h']
      rfl
    | refused r =>
      have h' : Sys2Proof.core.step s = .refused r := h
      rw [h']
      rfl

/-! ### The action of each phase -/

theorem nextAction_rst {s : State} (h : s.rst = true) : nextAction s = .hold := by simp [nextAction, h]

theorem nextAction_idle {s : State} (hr : s.rst = false) (h : s.phase = .idle) : nextAction s = idleAction s := by
  simp [nextAction, hr, h]

theorem nextAction_framing {s : State} (hr : s.rst = false) (h : s.phase = .framing) : nextAction s = .frame := by
  simp [nextAction, hr, h]

theorem nextAction_receiving {s : State} (hr : s.rst = false) (h : s.phase = .receiving) :
    nextAction s = rxAction s.offered := by
  simp [nextAction, hr, h]

theorem nextAction_decoding {s : State} (hr : s.rst = false) (h : s.phase = .decoding) :
    nextAction s = decodeAction s := by
  simp [nextAction, hr, h]

theorem step_of_action {s : State} {a : Action} (h : nextAction s = a) : step s = perform s a := by
  rw [step, h]

theorem step_rst {s : State} (h : s.rst = true) : step s = .next s.holdReset := step_of_action (nextAction_rst h)

theorem step_framing {s : State} (hr : s.rst = false) (h : s.phase = .framing) : step s = framerStep s :=
  step_of_action (nextAction_framing hr h)

/-- RECEIVING takes the oldest RX event, whatever else is offered (20 R60). -/
theorem step_receiving {s : State} (hr : s.rst = false) (h : s.phase = .receiving) {b : Byte} {last : Bool}
    {rest : List PortEvent} (ht : takeRx s.offered = some (b, last, rest)) :
    step s = .next (State.rxEvent { s with offered := rest } b last) :=
  step_of_action (a := .receive b last rest) (by rw [nextAction_receiving hr h, rxAction, ht])

theorem step_receiving_wait {s : State} (hr : s.rst = false) (h : s.phase = .receiving)
    (ht : takeRx s.offered = none) : step s = .next s :=
  step_of_action (a := .wait) (by rw [nextAction_receiving hr h, rxAction, ht])

/-! ### The fetch at the cursor -/

theorem takeRx_cons_rx (b : Byte) (last : Bool) (es : List PortEvent) :
    takeRx (.rx b last :: es) = some (b, last, es) := rfl

/-- What the fetch answers is the tag at the cursor and what its rule reads, all inside the payload (43 R189). -/
theorem segmentBytes_ok {s : State} {bs : List Byte} (h : segmentBytes s = .ok bs) :
    ∃ t rest, bs = t :: rest ∧ s.dCur < s.dLen ∧ fbGet s.fb s.dCur = some t ∧ s.dCur + 1 + rest.length ≤ s.dLen ∧
      readCells s.fb (s.dCur + 1) rest.length = .ok rest := by
  unfold segmentBytes at h
  cases h1 : memRead s s.dCur 1 with
  | error f => simp [h1] at h
  | ok tag =>
    obtain ⟨hle, hr⟩ := memRead_ok h1
    obtain ⟨t, cs, ht, hcs, rfl⟩ := readCells_succ_ok.1 hr
    simp at hcs
    subst hcs
    rw [h1] at h
    simp only at h
    generalize (if [t] = [2] ∨ [t] = [3] ∨ [t] = [4] then 6 else if [t] = [1] then 2 else 0) = need at h
    by_cases hn : s.dLen - (s.dCur + 1) < need
    · rw [if_pos hn] at h
      cases h
      exact ⟨t, [], rfl, by omega, ht, by simp; omega, by simp⟩
    · rw [if_neg hn] at h
      cases h2 : memRead s (s.dCur + 1) need with
      | error f => rw [h2] at h; cases h
      | ok bs' =>
        rw [h2] at h
        cases h
        obtain ⟨hle', hr'⟩ := memRead_ok h2
        have hl := readCells_length hr'
        exact ⟨t, bs', rfl, by omega, ht, by omega, by rw [hl]; exact hr'⟩

/-- What a segment at the cursor decodes to runs in this way (43 R188): one of four meanings. -/
theorem decodeSegment_cons (t : Byte) (rest : List Byte) :
    decodeSegment (t :: rest) =
      match sensorKind t with
      | some .acc => .ok (.segAcc (axesOf rest))
      | some .mag => .ok (.segMag (axesOf rest))
      | some .gyro => .ok (.segGyro (axesOf rest))
      | none => if t = 1 then .ok (.segEnableAck (ackOf rest)) else .ok (.segUnknown t) := by
  by_cases h2 : t = 2
  · subst h2; rfl
  by_cases h3 : t = 3
  · subst h3; rfl
  by_cases h4 : t = 4
  · subst h4; rfl
  simp only [decodeSegment, sensorKind, if_neg h2, if_neg h3, if_neg h4]

end Sys2Proof.Machine
end

