-- ==== Sys2Proof/Laws/Invariant.lean ====
section
/-! SUPPORT. What keeps the invariant of Sys2Proof/Safety.lean: one lemma per operation of the machine. -/

namespace Sys2Proof.Machine

open Sys2Proof

/-- 40 R102: the fold of a concatenation. -/
theorem xorFold_append (s t : List Byte) : xorFold (s ++ t) = xorFold s ^^^ xorFold t := by
  induction s with
  | nil => simp
  | cons b s ih => simp [ih, BitVec.xor_assoc]

/-- A state in IDLE that keeps the parameters, FB and the lengths keeps the invariant. -/
theorem State.Inv.idle {s t : State} (h : s.Inv) (hp : t.phase = .idle) (hc : t.cfg = s.cfg) (hf : t.fb = s.fb) (hv :
    t.vLen = s.vLen) (hd : t.dLen = s.dLen) (hcur : t.dCur ≤ s.dLen) (hr : t.fOp = 2 → legalRange t.fVal) (hq :
    t.fOp = 3 → legalRate t.fVal) : t.Inv where
  capacity := by rw [hc]; exact h.capacity
  canonical := by rw [hf]; exact h.canonical
  inside := by rw [hf, hc]; exact h.inside
  vLen_le := by rw [hv, hc]; exact h.vLen_le
  dLen_lt := by rw [hd, hc]; exact h.dLen_lt
  dCur_le := by rw [hd]; exact hcur
  range := hr
  rate := hq
  framing := fun h' => by rw [hp] at h'; cases h'
  receiving := fun h' => by rw [hp] at h'; cases h'
  decoding := fun h' => by rw [hp] at h'; cases h'

/-- 41 R121: a coerced range is legal. -/
theorem legalRange_rangeValue (a : Arg) : legalRange (rangeValue a) := by
  unfold rangeValue coerceRange legalRange
  split
  · rename_i h
    rcases h with h | h | h | h | h <;> rw [h] <;> decide
  · decide
/-- 41 R122: a coerced rate is legal. -/
theorem legalRate_rateValue (a : Arg) : legalRate (rateValue a) := by
  unfold rateValue coerceRate legalRate
  split
  · rename_i h
    have : a.toInt.toNat < 2^32 := by omega
    simp [BitVec.toNat_ofNat]; omega
  · decide

/-- The offered events are no part of the invariant. -/
theorem State.Inv.offered {s : State} (h : s.Inv) (r) : State.Inv {s with offered := r} :=
  ⟨h.1,h.2,h.3,h.4,h.5,h.6,h.7,h.8, fun hp => ⟨(h.9 hp).1,(h.9 hp).2,(h.9 hp).3,(h.9 hp).4⟩,
   fun hp => ⟨(h.10 hp).1,(h.10 hp).2,(h.10 hp).3,(h.10 hp).4⟩,
       fun hp => ⟨(h.11 hp).1,(h.11 hp).2,(h.11 hp).3,(h.11 hp).4,(h.11 hp).5,(h.11 hp).6⟩⟩

/-- 60 R232: raising a fault keeps the invariant. -/
theorem State.Inv.raise {s : State} (h : s.Inv) (st t o) : (s.raise st t o).Inv :=
  State.Inv.idle h rfl rfl rfl rfl rfl h.dCur_le h.range h.rate

/-- 42 R157: folding and storing a byte in RECEIVING keeps the invariant. -/
theorem State.Inv.storeRx {s : State} (h : s.Inv) (hm : s.mode = false) (hfull : s.vOvf = true → s.vLen = s.cfg.nMax)
   (hcells : ∃ bs, readCells s.fb 0 s.vLen = .ok bs ∧ (s.vOvf = false → s.acc = xorFold bs)) (hp :
       s.phase = .receiving) (b : Byte) :
   (s.storeRx b).Inv := by
  have hcap := h.capacity
  obtain ⟨bs, h1, h2⟩ := hcells
  by_cases hr : s.vLen < s.cfg.nMax
  · rw [storeRx_room b hr]
    refine ⟨h.1, Memory.wf_fbSet h.2 _ _, inside_fbSet h.3 hr _, hr, h.5, h.6, h.7, h.8, ?_, ?_, ?_⟩
    · intro hh; exact absurd (hp.symm.trans hh) (by decide)
    · intro _
      refine ⟨hm, by simp, fun ho => ?_, bs ++ [b], readCells_push h1 b, fun ho => ?_⟩
      · have := hfull ho; omega
      · simp only at ho ⊢; rw [h2 ho, xorFold_append]; simp
    · intro hh; exact absurd (hp.symm.trans hh) (by decide)
  · rw [storeRx_full b hr]
    refine ⟨h.1, h.2, h.3, h.4, h.5, h.6, h.7, h.8, ?_, ?_, ?_⟩
    · intro hh; exact absurd (hp.symm.trans hh) (by decide)
    · intro _
      have := h.vLen_le
      exact ⟨hm, (by show 1 ≤ s.vLen; omega), fun _ => (by show s.vLen = s.cfg.nMax; omega), bs, h1,
          fun ho => (by cases ho)⟩
    · intro hh; exact absurd (hp.symm.trans hh) (by decide)

theorem storeRx_phase (s : State) (b) : (s.storeRx b).phase = s.phase := by
  unfold State.storeRx; split <;> rfl

/-- 42 R158 to R160: the verdict keeps the invariant. -/
theorem State.Inv.verdict {s : State} (h : s.Inv) (hp : s.phase = .receiving) : s.verdict.Inv := by
  have hr := h.receiving hp
  rcases verdict_cases s with ⟨_, e⟩ | ⟨_, _, e⟩ | ⟨ha, ho, e⟩ <;> rw [e]
  · exact State.Inv.raise h _ _ _
  · exact State.Inv.raise h _ _ _
  · obtain ⟨bs, h1, h2⟩ := hr.cells
    have := hr.some
    have := h.vLen_le
    refine ⟨h.1, h.2, h.3, h.4, by simp; omega, by simp, h.7, h.8, ?_, ?_, ?_⟩
    · intro hh; cases hh
    · intro hh; cases hh
    · intro _
      exact ⟨hr.mode, ho, by simp; omega, by simp, ha, bs, h1, by rw [← h2 ho, ha]⟩

/-- 42 R156 to R160: an RX event keeps the invariant. -/
theorem State.Inv.rxEvent {s : State} (h : s.Inv) (b last) : (s.rxEvent b last).Inv := by
  have key : ∀ u : State, u.Inv → u.mode = false → (u.vOvf = true → u.vLen = u.cfg.nMax) →
   (∃ bs, readCells u.fb 0 u.vLen = .ok bs ∧ (u.vOvf = false → u.acc = xorFold bs)) → u.phase = .receiving →
       (u.receiveByte b last).Inv := by
    intro u hu a1 a2 a3 a4
    have hs := State.Inv.storeRx hu a1 a2 a3 a4 b
    unfold State.receiveByte
    split
    · exact State.Inv.verdict hs ((storeRx_phase u b).trans a4)
    · exact hs
  rcases rxEvent_cases s b last with ⟨hp, e⟩ | ⟨hp, e⟩ | ⟨hp, e⟩ <;> rw [e]
  · have hcap := h.capacity
    have hlt : s.frameStart.vLen < s.frameStart.cfg.nMax := by simp; omega
    have hs : (s.frameStart.storeRx b).Inv := by
      rw [storeRx_room b hlt]
      refine ⟨h.1, Memory.wf_fbSet h.2 _ _, inside_fbSet h.3 hlt _, by simp; omega, h.5, h.6, h.7, h.8, ?_, ?_, ?_⟩
      · intro hh; cases hh
      · intro _
        refine ⟨rfl, (by simp), fun ho => (by cases ho), [b], (by simp [readCells, fbGet_fbSet_same]),
            fun _ => (by simp)⟩
      · intro hh; cases hh
    unfold State.receiveByte
    split
    · exact State.Inv.verdict hs (storeRx_phase _ b)
    · exact hs
  · have hr := h.receiving hp
    exact key s h hr.mode hr.full hr.cells hp
  · exact h

/-- A run of RX events keeps the invariant. -/
theorem State.Inv.rxRun (raw) : ∀ {s : State}, s.Inv → (s.rxRun raw).Inv := by
  induction raw with
  | nil => intro s h; exact h
  | cons b bs ih =>
    intro s h
    cases bs with
    | nil => exact State.Inv.rxEvent h b true
    | cons c cs => exact ih (State.Inv.rxEvent h b false)

/-- 43 R189: the cursor of the loop never leaves the payload. -/
theorem decodeLoop_cursor_le (n fuel) : ∀ cur bs, bs.length + cur = n ∨ (bs = [] ∧ cur = n) →
    let r := decodeLoop n fuel cur bs; cur ≤ r.2 ∧ r.2 ≤ n := by
  induction fuel with
  | zero => intro cur bs h; simp [decodeLoop]; rcases h with h | h <;> omega
  | succ f ih =>
    intro cur bs h
    cases bs with
    | nil => simp [decodeLoop]; simp at h; omega
    | cons t rest =>
      have hl : rest.length + 1 + cur = n := by rcases h with h | ⟨h, _⟩; simpa using h; cases h
      simp only [decodeLoop]
      cases sensorKind t with
      | some k =>
        simp only
        cases hx : axesOf rest with
        | none => simp; omega
        | some v =>
          have : 6 ≤ rest.length := by
            unfold axesOf at hx; split at hx <;> simp at hx ⊢
          have := ih (cur + 7) (rest.drop 6) (.inl (by simp; omega))
          simp only at this ⊢
          omega
      | none =>
        simp only
        split
        · cases hx : ackOf rest with
          | none => simp; omega
          | some v =>
            have : 2 ≤ rest.length := by
              unfold ackOf at hx; split at hx <;> simp at hx ⊢
            have := ih (min (cur + 7) n) (rest.drop 6) (by
              by_cases h6 : 6 ≤ rest.length
              · left; simp; omega
              · right; refine ⟨by simp; omega, by omega⟩)
            simp only at this ⊢
            omega
        · simp; omega

/-- 43 R189: the last cursor of DECODE is inside the payload. -/
theorem decodeRun_cursor_le (P) : (decodeRun P).2 ≤ P.length := by
  cases P with
  | nil => simp [decodeRun]
  | cons l segs =>
    have := decodeLoop_cursor_le (l::segs).length (l::segs).length 1 segs (.inl (by simp))
    exact this.2

/-- A whole command keeps the invariant. -/
theorem State.Inv.sendCommand {s : State} (h : s.Inv) (op sid v c body) (h2 : op = 2 → legalRange v) (h3 : op = 3 →
    legalRate v) :
  (s.sendCommand op sid v c body).Inv := State.Inv.idle h rfl rfl rfl rfl rfl h.dCur_le h2 h3

theorem whenIdle_inv {s t u : State} (h : s.Inv) (ht : s.phase = .idle → t.Inv) (e : whenIdle s t = .next u) :
    u.Inv := by
  rcases whenIdle_next e with ⟨hp, rfl⟩ | ⟨_, rfl⟩
  · exact ht hp
  · exact h
theorem whenDecoding_inv {s t u : State} (h : s.Inv) (ht : s.phase = .decoding → t.Inv) (e :
    whenDecoding s t = .next u) : u.Inv := by
  rcases whenDecoding_next e with ⟨hp, rfl⟩ | ⟨_, rfl⟩
  · exact ht hp
  · exact h

/-- 43 R188: a pass that advances the cursor inside the payload keeps the invariant. -/
theorem State.Inv.advance {s : State} (h : s.Inv) (hp : s.phase = .decoding) (c : Nat) (e) (hc : c ≤ s.dLen) (h1 :
    s.dCur ≤ c) :
    State.Inv {s with emitted := e, dCur := c} := by
  have hd := h.decoding hp
  refine ⟨h.1, h.2, h.3, h.4, h.5, hc, h.7, h.8, ?_, ?_, ?_⟩
  · intro hh; exact absurd (hp.symm.trans hh) (by decide)
  · intro hh; exact absurd (hp.symm.trans hh) (by decide)
  · intro _
    exact ⟨hd.1, hd.2, hd.3, fun h0 => by have := hd.4 h0; simp only; omega, hd.5, hd.6⟩

/-- Executing an instruction that its fetch bounds keeps the invariant. -/
theorem exec_inv_of_fetched {i : Instr} {s t : State} (h : s.Inv) (e : exec i s = .next t)
   (hseg : ∀ v, (i = .segAcc (some v) ∨ i = .segMag (some v) ∨ i = .segGyro (some v)) → s.dCur + 7 ≤ s.dLen)
   (hack : ∀ a, i = .segEnableAck (some a) → s.dCur + 3 ≤ s.dLen)
   (hdec : ∀ P, i = .decode P → P.length = s.dLen) : t.Inv := by
  have sens : ∀ k (ax : Option Triple), (∀ v, ax = some v → s.dCur + 7 ≤ s.dLen) → s.phase = .decoding →
      (s.sensorSegment k ax).Inv := by
    intro k ax hx hp
    rcases sensorSegment_cases s k ax with ⟨v, hv, e⟩ | ⟨_, e⟩ <;> rw [e]
    · exact State.Inv.advance h hp _ _ (hx v hv) (by omega)
    · exact State.Inv.raise h _ _ _
  have nop : ∀ u : State, s.phase = .idle → u.phase = s.phase → u.cfg = s.cfg → u.fb = s.fb → u.vLen = s.vLen →
      u.dLen = s.dLen → u.dCur = s.dCur → u.fOp = s.fOp → u.fVal = s.fVal → u.Inv := by
    intro u hp a1 a2 a3 a4 a5 a6 a7 a8
    exact State.Inv.idle h (a1.trans hp) a2 a3 a4 a5 (by rw [a6]; exact h.dCur_le) (by rw [a7, a8]; exact h.range)
        (by rw [a7, a8]; exact h.rate)
  cases i with
  | ckStart m b =>
    exact whenIdle_inv (t := s.startChecksum m) h (fun hp => nop _ hp rfl rfl rfl rfl rfl rfl rfl rfl) e
  | ckAbsorb m b =>
    exact whenIdle_inv (t := s.absorb b) h (fun hp => nop _ hp rfl rfl rfl rfl rfl rfl rfl rfl) e
  | ckRead m b =>
    exact whenIdle_inv (t := s.emit [.ckResult (ckResult s.mode s.acc)])
      h (fun hp => nop _ hp rfl rfl rfl rfl rfl rfl rfl rfl) e
  | ckReserved m b =>
    exact whenIdle_inv h (fun hp => h) e
  | cksumOut b =>
    exact whenIdle_inv (t := (s.checksumSequence true b).emit [.ckResult (outboundChecksum b)])
      h (fun hp => nop _ hp rfl rfl rfl rfl rfl rfl rfl rfl) e
  | cksumIn b =>
    exact whenIdle_inv (t := (s.checksumSequence false b).emit [.ckResult (inboundChecksum b)])
      h (fun hp => nop _ hp rfl rfl rfl rfl rfl rfl rfl rfl) e
  | disable a b =>
    exact whenIdle_inv h (fun _ => State.Inv.sendCommand h _ _ _ _ _ (fun h => absurd h (by decide))
      (fun h => absurd h (by decide))) e
  | enable a b =>
    exact whenIdle_inv h (fun _ => State.Inv.sendCommand h _ _ _ _ _ (fun h => absurd h (by decide))
      (fun h => absurd h (by decide))) e
  | setAccelRange a b =>
    exact whenIdle_inv h (fun _ => State.Inv.sendCommand h _ _ _ _ _ (fun _ => legalRange_rangeValue b)
      (fun h => absurd h (by decide))) e
  | setSamplingRate a b =>
    exact whenIdle_inv h (fun _ => State.Inv.sendCommand h _ _ _ _ _ (fun h => absurd h (by decide))
      (fun _ => legalRate_rateValue b)) e
  | validate raw =>
    simp only [exec, execValidate] at e
    split at e <;> cases e
    exact State.Inv.rxRun raw h
  | decode P =>
    refine whenDecoding_inv h (fun hp => ?_) e
    have hl := hdec P rfl
    have h5 := h.5
    exact ⟨h.1, h.2, h.3, h.4, by simp; omega, by simpa using decodeRun_cursor_le P, h.7, h.8,
        (fun hh => by cases hh), (fun hh => by cases hh), (fun hh => by cases hh)⟩
  | segEnableAck a =>
    refine whenDecoding_inv h (fun hp => ?_) e
    rcases ackSegment_cases s a with ⟨v, hv, e⟩ | ⟨_, e⟩ <;> rw [e]
    · have := hack v (by rw [hv])
      exact State.Inv.advance h hp _ _ (by omega) (by omega)
    · exact State.Inv.raise h _ _ _
  | segAcc a =>
    exact whenDecoding_inv h (fun hp => sens _ a (fun v hv => hseg v (by simp [hv])) hp) e
  | segMag a =>
    exact whenDecoding_inv h (fun hp => sens _ a (fun v hv => hseg v (by simp [hv])) hp) e
  | segGyro a =>
    exact whenDecoding_inv h (fun hp => sens _ a (fun v hv => hseg v (by simp [hv])) hp) e
  | segUnknown t =>
    exact whenDecoding_inv h (fun hp => State.Inv.raise h _ _ _) e

/-- 41 R134: accepting a command establishes the FRAMING part of the invariant. -/
theorem State.Inv.acceptCommand {s : State} (h : s.Inv) (op sid arg) : (s.acceptCommand op sid arg).Inv := by
  refine ⟨h.1, h.2, h.3, h.4, h.5, h.6, ?_, ?_, ?_, (fun hh => by cases hh), (fun hh => by cases hh)⟩
  · intro h2; simp at h2; subst h2; exact legalRange_rangeValue arg
  · intro h2; simp at h2; subst h2; exact legalRate_rateValue arg
  · intro _
    exact ⟨rfl, rfl, by simp [BitVec.le_def], by simp⟩

theorem latchedBody_length (op sid v) : (latchedBody op sid v).length = (bodyLength op).toNat := by
  rcases op_cases op with rfl | rfl | rfl | rfl <;> rfl

/-- 41 R135, R136: a step of FRAMING keeps the invariant. -/
theorem framerStep_inv {s t : State} (h : s.Inv) (hp : s.phase = .framing) (e : framerStep s = .next t) : t.Inv := by
  have hf := h.framing hp
  rcases framerStep_next e with ⟨_, rfl⟩ | ⟨hlt, b, hb, rfl⟩
  · exact State.Inv.idle h rfl rfl rfl rfl rfl h.dCur_le h.range h.rate
  · refine ⟨h.1, h.2, h.3, h.4, h.5, h.6, h.7, h.8, ?_, ?_, ?_⟩
    · intro _
      have hlt' : s.fIdx.toNat < s.fLen.toNat := hlt
      have hs : (s.fIdx + 1).toNat = s.fIdx.toNat + 1 := by
        have := s.fLen.isLt
        rw [BitVec.toNat_add]; simp; omega
      refine ⟨hf.mode, hf.length, ?_, ?_⟩
      · simp only [State.sendBodyByte_fIdx, State.sendBodyByte_fLen, BitVec.le_def, hs]; omega
      · rw [bodyByte_eq _ _ _ _ (by rw [← hf.length]; exact hlt)] at hb
        have := List.take_add_one (l := latchedBody s.fOp s.fSid s.fVal) (i := s.fIdx.toNat)
        simp only [State.sendBodyByte_acc, State.sendBodyByte_fOp, State.sendBodyByte_fSid, State.sendBodyByte_fVal,
            State.sendBodyByte_fIdx, hs]
        rw [this, hb, xorFold_append, hf.fold]; simp
    · intro hh; exact absurd (hp.symm.trans hh) (by decide)
    · intro hh; exact absurd (hp.symm.trans hh) (by decide)

/-- 20 R55: a segment fetched at the cursor lies inside the payload. -/
theorem fetched_segment_fits {s : State} {bs i} (h : segmentBytes s = .ok bs) (hd : decodeSegment bs = .ok i) :
   (∀ v, (i = .segAcc (some v) ∨ i = .segMag (some v) ∨ i = .segGyro (some v)) → s.dCur + 7 ≤ s.dLen) ∧
   (∀ a, i = .segEnableAck (some a) → s.dCur + 3 ≤ s.dLen) ∧
   (∀ P, i = .decode P → P.length = s.dLen) := by
  obtain ⟨t, rest, rfl, h1, h2, h3, h4⟩ := segmentBytes_ok h
  have ax : ∀ v, axesOf rest = some v → 6 ≤ rest.length := by
    intro v hx; unfold axesOf at hx; split at hx <;> simp at hx ⊢
  have ac : ∀ v, ackOf rest = some v → 2 ≤ rest.length := by
    intro v hx; unfold ackOf at hx; split at hx <;> simp at hx ⊢
  rw [decodeSegment_cons] at hd
  split at hd
  · cases hd; refine ⟨fun v hv => ?_, fun _ h => (by cases h),
      fun _ h => (by cases h)⟩; simp at hv; have := ax v hv; omega
  · cases hd; refine ⟨fun v hv => ?_, fun _ h => (by cases h),
      fun _ h => (by cases h)⟩; simp at hv; have := ax v hv; omega
  · cases hd; refine ⟨fun v hv => ?_, fun _ h => (by cases h),
      fun _ h => (by cases h)⟩; simp at hv; have := ax v hv; omega
  · split at hd
    · cases hd; refine ⟨fun v hv => (by simp at hv), fun a h => ?_,
        fun _ h => (by cases h)⟩; simp at h; have := ac a h; omega
    · cases hd; refine ⟨fun v hv => (by simp at hv), fun _ h => (by cases h), fun _ h => (by cases h)⟩

/-- 70 R261: the state under reset meets the invariant. -/
theorem State.Inv.holdReset {s : State} (h : s.Inv) : s.holdReset.Inv :=
  ⟨h.1, List.Pairwise.nil, (by intro c hc; cases hc), (by simp [State.reset]),
      (by have := h.1; simp [State.reset]; omega), (by simp [State.reset]), (by simp [State.reset]),
      (by simp [State.reset]), (fun hh => by cases hh), (fun hh => by cases hh), (fun hh => by cases hh)⟩

/-- A run of port events never stands for a segment or a payload. -/
theorem decodeOperation_kind {es i rest} (h : decodeOperation es = .ok (i, rest)) :
   (∀ v, ¬ (i = .segAcc (some v) ∨ i = .segMag (some v) ∨ i = .segGyro (some v))) ∧ (∀ a, i ≠ .segEnableAck a) ∧ (∀ P,
       i ≠ .decode P) := by
  unfold decodeOperation at h
  split at h
  · cases h
  · split at h
    · split at h <;> cases h
      · split <;> simp
      · simp
    · cases h; unfold decodeCk; split_ifs <;> simp
  · cases h; unfold decodeCmd; split_ifs <;> simp
  · split at h <;> cases h; simp

/-- 10 R35: a raw frame has at least one byte. -/
theorem takeFrame_ne_nil {es : List PortEvent} {rest : List PortEvent} : takeFrame es ≠ some ([], rest) := by
  induction es generalizing rest with
  | nil => simp [takeFrame]
  | cons e es ih =>
    cases e with
    | rx b last =>
      cases last with
      | true => simp [takeFrame]
      | false => simp only [takeFrame]; split <;> simp
    | ck op m b =>
      simp only [takeFrame]
      split
      · rename_i bs r h; intro h'; simp at h'; rw [h'.1] at h; exact ih h
      · simp
    | cmd op sid a =>
      simp only [takeFrame]
      split
      · rename_i bs r h; intro h'; simp at h'; rw [h'.1] at h; exact ih h
      · simp

end Sys2Proof.Machine
end

