-- ==== Sys2Proof/Laws/PerInstr.lean ====
section
/-! SUPPORT. The round trip of the encoding, one lemma per constructor of Instr. -/

namespace Sys2Proof

/-! ### Bits and bytes -/

theorem le16_low_high (v : Count) : le16 (lowByte v) (highByte v) = v := by
  apply BitVec.eq_of_getLsbD_eq
  intro i hi
  simp only [le16, lowByte, highByte, BitVec.getLsbD_append, BitVec.getLsbD_extractLsb']
  by_cases h : i < 8
  · simp [h]
  · have h8 : i - 8 < 8 := by omega
    simp [h, h8, show 8 + (i - 8) = i by omega]

theorem axesOf_axesBytes (axes : Option Triple) : axesOf (axesBytes axes) = axes := by
  cases axes with
  | none => rfl
  | some v => simp [axesBytes, axesOf, le16_low_high]

theorem ackOf_ackBytes (ack : Option AckBytes) : ackOf (ackBytes ack) = ack := by
  cases ack <;> rfl

/-! ### Runs of events -/

theorem takeAbsorbs_cksum (bs : List Byte) (rest : List PortEvent) :
    takeAbsorbs (bs.map (PortEvent.ck 1#2 false) ++ .ck 2#2 false 0#8 :: rest) = some (bs, rest) := by
  induction bs with
  | nil => rfl
  | cons b bs ih => simp [takeAbsorbs, ih]

theorem takeFrame_rxEvents {raw : List Byte} (h : raw ≠ []) (rest : List PortEvent) :
    takeFrame (rxEvents raw ++ rest) = some (raw, rest) := by
  induction raw with
  | nil => exact absurd rfl h
  | cons b bs ih =>
    cases bs with
    | nil => rfl
    | cons c cs => simp [rxEvents, takeFrame, ih]

theorem decodeOperation_rxEvents {raw : List Byte} (h : raw ≠ []) (rest : List PortEvent) :
    decodeOperation (rxEvents raw ++ rest) = .ok (.validate raw, rest) := by
  have ht := takeFrame_rxEvents h rest
  cases raw with
  | nil => exact absurd rfl h
  | cons b bs =>
    cases bs with
    | nil => simp_all [rxEvents, decodeOperation]
    | cons c cs =>
      simp only [rxEvents, List.cons_append, decodeOperation] at ht ⊢
      rw [ht]

end Sys2Proof

namespace Sys2Proof.Laws.RoundTrip

open Sys2Proof

/-- Decoding the encoding of a well-formed instruction gives the instruction. -/
def Statement (i : Instr) : Prop := i.wf = true → decode (encode i) = .ok i

theorem ckStart (mode : Bool) (byte : Byte) : Statement (.ckStart mode byte) := fun _ => rfl
theorem ckAbsorb (mode : Bool) (byte : Byte) : Statement (.ckAbsorb mode byte) := fun _ => rfl
theorem ckRead (mode : Bool) (byte : Byte) : Statement (.ckRead mode byte) := fun _ => rfl
theorem ckReserved (mode : Bool) (byte : Byte) : Statement (.ckReserved mode byte) := fun _ => rfl

theorem cksumOut (bytes : List Byte) : Statement (.cksumOut bytes) := fun _ => by
  simp [encode, cksumEvents, decode, decodeOperation, takeAbsorbs_cksum]

theorem cksumIn (bytes : List Byte) : Statement (.cksumIn bytes) := fun _ => by
  simp [encode, cksumEvents, decode, decodeOperation, takeAbsorbs_cksum]

theorem disable (sid : Byte) (arg : Arg) : Statement (.disable sid arg) := fun _ => rfl
theorem enable (sid : Byte) (arg : Arg) : Statement (.enable sid arg) := fun _ => rfl
theorem setAccelRange (sid : Byte) (arg : Arg) : Statement (.setAccelRange sid arg) := fun _ => rfl
theorem setSamplingRate (sid : Byte) (arg : Arg) : Statement (.setSamplingRate sid arg) := fun _ => rfl

theorem validate (raw : List Byte) : Statement (.validate raw) := fun h => by
  have h' : raw ≠ [] := by rintro rfl; simp [Instr.wf] at h
  have := decodeOperation_rxEvents h' []
  rw [List.append_nil] at this
  simp [encode, Sys2Proof.decode, this]

theorem decode (payload : List Byte) : Statement (.decode payload) := fun _ => rfl

theorem segEnableAck (ack : Option AckBytes) : Statement (.segEnableAck ack) := fun _ => by
  simp [encode, Sys2Proof.decode, decodeSegment, ackOf_ackBytes]

theorem segAcc (axes : Option Triple) : Statement (.segAcc axes) := fun _ => by
  simp [encode, Sys2Proof.decode, decodeSegment, axesOf_axesBytes]

theorem segMag (axes : Option Triple) : Statement (.segMag axes) := fun _ => by
  simp [encode, Sys2Proof.decode, decodeSegment, axesOf_axesBytes]

theorem segGyro (axes : Option Triple) : Statement (.segGyro axes) := fun _ => by
  simp [encode, Sys2Proof.decode, decodeSegment, axesOf_axesBytes]

theorem segUnknown (tag : Byte) : Statement (.segUnknown tag) := fun h => by
  simp [Instr.wf, definedTag] at h
  simp [encode, Sys2Proof.decode, decodeSegment, h]

end Sys2Proof.Laws.RoundTrip
end

