-- ==== Sys2Proof/Laws/Session.lean ====
section
/-! SUPPORT. What the happenings of a session can do. -/

namespace Sys2Proof.Machine

open Sys2Proof

@[simp] theorem Session.offer_block (h : Session) (es : List PortEvent) :
    (h.offer es).block = { h.block with offered := h.block.offered ++ es } := rfl
@[simp] theorem Session.offer_seq (h : Session) (es : List PortEvent) : (h.offer es).seq = h.seq := rfl
@[simp] theorem Session.offer_todo (h : Session) (es : List PortEvent) : (h.offer es).todo = h.todo := rfl
@[simp] theorem Session.offer_issued (h : Session) (es : List PortEvent) : (h.offer es).issued = h.issued := rfl
@[simp] theorem Session.offer_range (h : Session) (es : List PortEvent) : (h.offer es).range = h.range := rfl
@[simp] theorem Session.offer_rate (h : Session) (es : List PortEvent) : (h.offer es).rate = h.rate := rfl
@[simp] theorem Session.offer_awaitCst (h : Session) (es : List PortEvent) : (h.offer es).awaitCst = h.awaitCst := rfl
@[simp] theorem Session.offer_awaitPace (h : Session) (es : List PortEvent) :
    (h.offer es).awaitPace = h.awaitPace := rfl
@[simp] theorem Session.offer_aborted (h : Session) (es : List PortEvent) : (h.offer es).aborted = h.aborted := rfl

/-- When a cycle of the read loop may begin (44 R210, 70 R265). -/
theorem Session.mayReadFrame_iff (h : Session) :
    h.mayReadFrame = true ↔
      h.aborted = false ∧ h.seq = .ready ∧ h.block.phase = .idle ∧ h.block.offered = [] := by
  simp [Session.mayReadFrame, and_assoc]

/-- A step of the block in a session changes the block and the two waits only. -/
theorem Session.step_blockStep {h h' : Session} (e : h.step .blockStep = .next h') :
    ∃ b c p, Sys2Proof.Machine.step h.block = .next b ∧ h' = { h with block := b, awaitCst := c, awaitPace := p } := by
  simp only [Session.step] at e
  split at e
  · cases e
    exact ⟨_, _, _, ‹_›, rfl⟩
  · cases e
  · cases e

/-- What advancing can do: nothing, issue the next command, or enter the next state. -/
theorem Session.advance_cases (h : Session) :
    h.advance = h ∨
      (h.mayAdvance = true ∧ ∃ i todo, h.todo = i :: todo ∧
        h.advance =
          { h.offer (commandEvents i) with todo := todo, issued := h.issued ++ [i], awaitCst := true }) ∨
      (h.mayAdvance = true ∧ h.todo = [] ∧
        h.advance = { h with seq := seqNext h.seq, todo := seqCommands h.range h.rate (seqNext h.seq) }) := by
  unfold Session.advance
  split
  · rename_i hm
    split
    · exact .inr (.inl ⟨hm, _, _, ‹_›, rfl⟩)
    · exact .inr (.inr ⟨hm, ‹_›, rfl⟩)
  · exact .inl rfl

/-- A run of happenings in two parts. -/
theorem Session.run_append (es fs : List SessionEvent) {h h' : Session} (e : Session.run es h = .next h') :
    Session.run (es ++ fs) h = Session.run fs h' := by
  induction es generalizing h with
  | nil => cases e; rfl
  | cons x es ih =>
    simp only [List.cons_append, Session.run] at e ⊢
    cases hx : h.step x with
    | next u => rw [hx] at e; exact ih e
    | fault f => rw [hx] at e; cases e
    | refused r => rw [hx] at e; cases e

end Sys2Proof.Machine
end

