-- ==== Sys2Proof/Tests/Slice0.lean ====
section
/-! SUPPORT. Tests: expected values are the spec's own (spec/95_test_vectors.md S1 to S9, sections 2 to 6, 41 R138, and the
examples of the rules), and a witness for the hypotheses of every statement that has some. -/

namespace Sys2Proof.Machine.Tests

open Sys2Proof Sys2Proof.Machine

/-! ### Helpers -/

/-- The state after an outcome, or the reset state. -/
def after : Host.Outcome State Fault Refusal → State
  | .next t => t
  | .fault _ => State.reset
  | .refused _ => State.reset

/-- The events of an outcome's state, `none` where it stops. -/
def out : Host.Outcome State Fault Refusal → Option (List OutEvent)
  | .next t => some t.emitted
  | .fault _ => none
  | .refused _ => none

/-- Idle after reset, with these events offered. -/
def ready (es : List PortEvent) : State := { State.reset with offered := es }

/-- As `ready`, taking whole operations, with a buffer of 9 bytes. -/
def whole (es : List PortEvent) : State := { ready es with cfg := { nMax := 9, grain := .operation } }

/-- Decoding a payload that stands in FB, at a cursor. -/
def decoding (P : List Byte) (cur : Nat) : State :=
  { State.reset with
    phase := .decoding, fb := storeBytes [] 0 P, vLen := P.length + 1, dLen := P.length, dCur := cur }

/-- Receiving, `n` zero bytes of a frame in a buffer of 9. -/
def receiving (n : Nat) (es : List PortEvent) : State :=
  { State.reset with
    cfg := { nMax := 9, grain := .event }, phase := .receiving, fb := storeBytes [] 0 (List.replicate n 0), vLen := n
    offered := es }

/-- Framing SET_SAMPLING_RATE 0x80, 100000 at a body index, with the ACC of the trace in 95 section 3. -/
def framing (idx : BitVec 4) (acc : Byte) : State :=
  { State.reset with
    phase := .framing, mode := true, acc := acc, fOp := 3, fSid := 0x80, fVal := 0x000186A0, fLen := 8, fIdx := idx }

def tx (bs : List Byte) (c : Byte) (coerced : Bool) : List OutEvent :=
  bs.map (OutEvent.tx · false) ++ [.tx c true, .cst coerced]

/-! ### Well-formedness -/

theorem test_wf_refuses_empty_frame : (Instr.validate []).wf = false := by decide
theorem test_wf_refuses_defined_tags :
    [1, 2, 3, 4].map (fun t : Byte => (Instr.segUnknown t).wf) = [false, false, false, false] := by decide
theorem test_wf_accepts :
    ((Instr.validate [0]).wf && (Instr.segUnknown 0).wf && (Instr.segUnknown 5).wf && (Instr.segUnknown 0xFF).wf &&
      (Instr.enable 0xFF 0).wf && (Instr.decode []).wf && (Instr.segAcc none).wf) = true := by decide

/-! ### Decoding: every row of the table, words written from 30 R90 and 30 R71 to R78 -/

theorem test_decode_ck_start : decodeTableWord 16 0b00100000000 = some (.ckStart true 0) := by decide
theorem test_decode_ck_start_eleven_bits : decodeTableWord 11 0b00000000111 = some (.ckStart false 7) := by decide
theorem test_decode_ck_absorb : decodeTableWord 16 0b01011111110 = some (.ckAbsorb false 0xFE) := by decide
theorem test_decode_ck_read : decodeTableWord 16 0b10000000000 = some (.ckRead false 0) := by decide
theorem test_decode_ck_reserved : decodeTableWord 16 0b11100000001 = some (.ckReserved true 1) := by decide
theorem test_decode_disable : decodeTableWord 40 0xFE02800082 = some (.disable 0x80 0) := by decide
theorem test_decode_enable : decodeTableWord 40 0xFE02820181 = some (.enable 0x82 0) := by decide
theorem test_decode_range : decodeTableWord 48 0xFE038004088F = some (.setAccelRange 0x80 8) := by decide
theorem test_decode_rate :
    decodeTableWord 72 0xFE068002A0860100A3 = some (.setSamplingRate 0x80 100000) := by decide
theorem test_decode_ack :
    decodeTableWord 56 0x018001AABBCCDD = some (.segEnableAck (some { sid := 0x80, flag := 1 })) := by decide
theorem test_decode_acc :
    decodeTableWord 56 0x02E80330F8B80B = some (.segAcc (some { x := 0x03E8, y := 0xF830, z := 0x0BB8 })) := by decide
theorem test_decode_mag :
    decodeTableWord 56 0x030A0014001E00 = some (.segMag (some { x := 10, y := 20, z := 30 })) := by decide
theorem test_decode_gyro :
    decodeTableWord 56 0x04FF7F0080FFFF = some (.segGyro (some { x := 0x7FFF, y := 0x8000, z := 0xFFFF })) := by
  decide
theorem test_decode_unknown : decodeTableWord 8 0xFF = some (.segUnknown 0xFF) := by decide
theorem test_decode_validate : decodeTableWord 24 0x070300 = some (.validate [0x07, 0x03, 0x00]) := by decide
theorem test_decode_payload : decodeTableWord 16 0x0EFF = some (.decode [0x0E, 0xFF]) := by decide
theorem test_decode_cksum_out :
    decodeOperation [.ck 0 true 9, .ck 1 true 0xFE, .ck 1 false 2, .ck 2 false 0, .ck 2 true 0] =
      .ok (.cksumOut [0xFE, 2], [.ck 2 true 0]) := by decide
theorem test_decode_cksum_in :
    decodeOperation [.ck 0 false 0, .ck 2 false 0] = .ok (.cksumIn [], []) := by decide
theorem test_decode_cmd_port :
    decode (.events [.cmd 2 0x84 0xFFFFFFFF]) = .ok (.setAccelRange 0x84 (-1)) := by decide
theorem test_decode_cut_segments :
    decodeSegment [2, 1, 0, 2, 0, 3] = .ok (.segAcc none) ∧ decodeSegment [1, 0x81] = .ok (.segEnableAck none) ∧
      decodeSegment [1, 0x81, 1] = .ok (.segEnableAck (some { sid := 0x81, flag := 1 })) := by decide

theorem test_reject_no_event : decode (.events []) = .error .noEvent := by decide
theorem test_reject_unended_frame : decode (.events [.rx 7 false]) = .error .frameNotEnded := by decide
theorem test_reject_no_byte : decode (.segment []) = .error .noByteAtCursor := by decide
theorem test_reject_trailing : decode (.events [.ck 2 false 0, .ck 2 false 0]) = .error .trailingEvents := by decide
theorem test_reject_wrong_marker : decodeWire [0xFF, 0x02, 0x80, 0x00, 0x82] = .error .notACommandFrame := by decide
theorem test_reject_table_word : decodeTableWord 40 0x0000000000 = none := by decide

theorem test_encode_rx_last :
    encode (.validate [7, 3, 4]) = .events [.rx 7 false, .rx 3 false, .rx 4 true] := by decide

/-! ### One step of a placed word -/

theorem test_fetch_word_enable :
    out (step (State.reset.withFetchWord 40 0xFE02800183)) = some (tx [0xFE, 0x02, 0x80, 0x01] 0x83 false) := by decide
theorem test_fetch_word_ck_start :
    (after (step (State.reset.withFetchWord 16 0b00100000000))).mode = true := by decide
theorem test_fetch_word_gyro :
    out (step (State.reset.withFetchWord 56 0x04FF7F0080FFFF)) =
      some [.ev (.reading .gyro 0x7FFF 0x8000 0xFFFF false)] := by decide

/-! ### Reset (10 R41) -/

theorem test_reset_registers :
    State.reset.phase.code = 0 ∧ State.reset.acc = 0x00 ∧ State.reset.fb = [] ∧ State.reset.dCur = 0 := by decide
theorem test_reset_waits : step State.reset = .next State.reset := rfl

/-! ### checksum_gen (95 section 2) -/

theorem test_ck_start_restarts :
    let t := after (exec (.ckStart true 0x55) { ready [] with acc := 0x7C })
    t.mode = true ∧ t.acc = 0x00 := by decide
theorem test_ck_absorb : (after (exec (.ckAbsorb true 0x80) { ready [] with acc := 0xFC })).acc = 0x7C := by decide
theorem test_ck_read_outbound :
    out (exec (.ckRead false 0) { ready [] with mode := true, acc := 0x7C }) = some [.ckResult 0x82] := by decide
theorem test_ck_read_inbound :
    out (exec (.ckRead true 0) { ready [] with acc := 0x7C }) = some [.ckResult 0x7C] := by decide
theorem test_ck_reserved : exec (.ckReserved true 0xFF) (ready []) = .next (ready []) := rfl
theorem test_cksum_out :
    out (exec (.cksumOut [0xFE, 0x02, 0x80, 0x00]) (ready [])) = some [.ckResult 0x82] := by decide
theorem test_cksum_in :
    out (exec (.cksumIn [0x07, 0x03, 0x0A, 0x00, 0x14, 0x00, 0x1E, 0x00]) (ready [])) = some [.ckResult 0x04] := by
  decide

/-! ### command_framer (41 R138, 95 section 3) -/

theorem test_disable :
    out (exec (.disable 0x84 5) (ready [])) = some (tx [0xFE, 0x02, 0x84, 0x00] 0x86 false) := by decide
theorem test_enable :
    out (exec (.enable 0x81 5) (ready [])) = some (tx [0xFE, 0x02, 0x81, 0x01] 0x82 false) := by decide
theorem test_range_258_is_coerced :
    out (exec (.setAccelRange 0 258) (ready [])) = some (tx [0xFE, 0x03, 0x80, 0x04, 0x10] 0x97 true) := by decide
theorem test_range_8 :
    out (exec (.setAccelRange 0 8) (ready [])) = some (tx [0xFE, 0x03, 0x80, 0x04, 0x08] 0x8F false) := by decide
theorem test_rate_top :
    out (exec (.setSamplingRate 0x82 1000000) (ready [])) =
      some (tx [0xFE, 0x06, 0x82, 0x02, 0x40, 0x42, 0x0F, 0x00] 0x8B false) := by decide
theorem test_rate_negative_is_coerced :
    out (exec (.setSamplingRate 0x80 (-5)) (ready [])) =
      some (tx [0xFE, 0x06, 0x80, 0x02, 0xA0, 0x86, 0x01, 0x00] 0xA3 true) := by decide
theorem test_framing_body_byte :
    out (step (framing 4 0x7A)) = some [.tx 0xA0 false] ∧ (after (step (framing 4 0x7A))).acc = 0xDA := by decide
theorem test_framing_checksum_byte : out (step (framing 8 0x5D)) = some [.tx 0xA3 true, .cst false] := by decide

/-! ### frame_validator (95 section 4) -/

theorem test_validate_accepts :
    let t := after (exec (.validate [0x07, 0x03, 0x0A, 0x00, 0x14, 0x00, 0x1E, 0x00, 0x04]) (whole []))
    t.phase = .decoding ∧ t.dLen = 8 ∧ t.vLen = 9 ∧ t.dCur = 1 := by decide
theorem test_validate_mismatch_before_overflow :
    out (exec (.validate [8, 2, 1, 0, 2, 0, 3, 0, 0, 0x0B]) (whole [])) = some [.ev (.finish .checksumMismatch 0 0)] ∧
      out (exec (.validate [8, 2, 1, 0, 2, 0, 3, 0, 0, 0x0A]) (whole [])) = some [.ev (.finish .frameOverflow 0 0)] := by
  decide

/-! ### field_decoder (95 section 5) -/

theorem test_decode_three_stops :
    decodePayload [0x0E, 2, 1, 0, 2, 0, 3, 0, 3, 1, 0, 2, 0, 3] =
      [.reading .acc 1 2 3 true, .finish .truncatedSegment 3 8] := by decide
theorem test_decode_ack_stride :
    decodePayload [0x0A, 1, 0x80, 1, 3, 0x0A, 0, 0x14, 0, 0x1E, 0] =
      [.ack 0x80 1, .finish .unknownSegmentType 0 8] := by decide
theorem test_exec_decode :
    let t := after (exec (.decode [0x03, 1, 0x81, 1]) (decoding [0x03, 1, 0x81, 1] 1))
    t.emitted = [.ev (.ack 0x81 1), .ev (.finish .ok 0 0)] ∧ t.phase = .idle := by decide
theorem test_acc_step :
    out (step (decoding [7, 2, 0xE8, 3, 0x30, 0xF8, 0xB8, 0x0B] 1)) =
      some [.ev (.reading .acc 1000 (-2000) 3000 true)] := by decide
theorem test_mag_step :
    out (step (decoding [7, 3, 0x0A, 0, 0x14, 0, 0x1E, 0] 1)) = some [.ev (.reading .mag 10 20 30 false)] := by decide
theorem test_gyro_step :
    out (step (decoding [7, 4, 0xFF, 0x7F, 0, 0x80, 0xFF, 0xFF] 1)) =
      some [.ev (.reading .gyro 32767 (-32768) (-1) false)] := by decide
theorem test_ack_step_does_not_examine_stride :
    (after (step (decoding [7, 1, 0x80, 1, 2, 0xE8, 3, 0] 1))).dCur = 8 := by decide
theorem test_unknown_step :
    out (step (decoding [0x0E, 3, 0x0A, 0, 0x14, 0, 0x1E, 0, 5, 1] 8)) =
      some [.ev (.finish .unknownSegmentType 5 8)] := by decide
theorem test_signed16 :
    signed16 0x7FFF = 32767 ∧ signed16 0x8000 = -32768 ∧ signed16 0xFFFF = -1 ∧ signed16 0xF830 = -2000 := by decide
theorem test_acc_values_exact : axisValue true (-2000) = -2 ∧ axisValue false 20 = 20 := by
  have h1 : (-2000 : Count).toInt = -2000 := by decide
  have h2 : (20 : Count).toInt = 20 := by decide
  constructor
  · simp only [axisValue, h1]; norm_num
  · simp only [axisValue, h2]; norm_num
theorem test_receive_frame_2 :
    receive 256 [7, 2, 0xE8, 3, 0x30, 0xF8, 0xB8, 0x0B, 0x94] = some [.finish .checksumMismatch 0 0] := by decide

/-! ### The host's side (95 P1, P3) -/

theorem test_bring_up_commands :
    bringUp 8 100000 =
      [.disable 0x80 0, .disable 0x81 0, .disable 0x82 0, .disable 0x83 0, .disable 0x84 0, .setAccelRange 0 8,
        .setSamplingRate 0x80 100000, .enable 0x80 0, .setSamplingRate 0x81 100000, .enable 0x81 0,
        .setSamplingRate 0x82 100000, .enable 0x82 0] := by decide
theorem test_forwarding :
    forwarded false [.reading .mag 10 20 30 false, .finish .unknownSegmentType 5 8] = [] ∧
      forwarded true [.reading .mag 10 20 30 false, .finish .unknownSegmentType 5 8] =
        [.reading .mag 10 20 30 false] ∧
      forwarded false [.reading .acc 1 2 3 true, .finish .truncatedSegment 3 8] = [.reading .acc 1 2 3 true] := by
  decide

/-- A session at Ready, with these events offered to its block. -/
def atReady (es : List PortEvent) : Session := { Session.initial with seq := .ready, block := ready es }

/-- 70 R265: at Ready the read loop offers a frame, and not before the block is idle with nothing offered. -/
theorem test_read_frame :
    (atReady []).step (.readFrame [7, 7]) = .next (atReady (rxEvents [7, 7])) ∧
      (atReady [.rx 7 false]).step (.readFrame [7, 7]) = .next (atReady [.rx 7 false]) ∧
      Session.initial.step (.readFrame [7, 7]) = .next Session.initial := ⟨rfl, rfl, rfl⟩
/-- 44 R210: an enable-ack may arrive during bring-up; the host waits for nothing but the CST and the delay. -/
theorem test_transport_byte_in_bring_up :
    Session.initial.step (.transportByte 7 false) = .next { Session.initial with block := ready [.rx 7 false] } := rfl

/-! ### The invariant at its phases -/

theorem reset_inv : State.reset.Inv where
  capacity := by decide
  canonical := by decide
  inside := by decide
  vLen_le := by decide
  dLen_lt := by decide
  dCur_le := by decide
  range := fun h => absurd h (by decide)
  rate := fun h => absurd h (by decide)
  framing := by intro h; cases h
  receiving := by intro h; cases h
  decoding := by intro h; cases h

/-- The invariant holds in the other three phases too: a command accepted, a first byte received, a frame validated. -/
theorem inv_in_every_phase :
    (∃ s : State, s.Inv ∧ s.phase = .framing) ∧ (∃ s : State, s.Inv ∧ s.phase = .receiving) ∧
      ∃ s : State, s.Inv ∧ s.phase = .decoding ∧ s.dLen = 1 :=
  ⟨⟨_, State.Inv.acceptCommand reset_inv 3 0x80 100000, rfl⟩, ⟨_, State.Inv.rxEvent reset_inv 7 false, by decide⟩,
    _, State.Inv.rxRun [7, 7] reset_inv, by decide, by decide⟩

/-- FRAMING at body index 5 of the trace in 95 section 3, and at its end. -/
theorem framing_inv : FramingInv (framing 5 0xDA) := ⟨by decide, by decide, by decide, by decide⟩
theorem framing_end_inv : (framing 8 0x5D).Inv where
  capacity := by decide
  canonical := by decide
  inside := by decide
  vLen_le := by decide
  dLen_lt := by decide
  dCur_le := by decide
  range := fun h => absurd h (by decide)
  rate := fun _ => ⟨by decide, by decide⟩
  framing := fun _ => ⟨by decide, by decide, by decide, by decide⟩
  receiving := by intro h; cases h
  decoding := by intro h; cases h
/-- RECEIVING in a full buffer. -/
theorem receiving_inv : ReceivingInv (receiving 9 []) :=
  ⟨by decide, by decide, by decide, List.replicate 9 0, by decide, by decide⟩

/-! ### Witnesses: the hypotheses of each statement are met -/

theorem ready_for_events (es : List PortEvent) : ReadyForEvents (ready es) := ⟨rfl, rfl, rfl⟩
theorem decoding_by_passes (P : List Byte) (cur : Nat) : DecodingByPasses (decoding P cur) := ⟨rfl, rfl, rfl⟩

/-- An idle state: CkStartLoadsModeClearsAcc, CkReservedChangesNothing, CksumOutIsFoldWithConstant, CksumInIsPlainFold,
DisableSendsFrame, EnableSendsFrame, CommandOutputIsPure. -/
theorem wit_idle : (ready []).phase = .idle := rfl

/-- CkAbsorbFoldsOneByte: a next state of the absorbing, and the zero byte. -/
theorem wit_CkAbsorb : ∃ t, exec (.ckAbsorb false 0x80) (ready []) = .next t := ⟨_, rfl⟩
/-- CkReadAppliesConstantAtRead: a read, an absorbing and a read. -/
theorem wit_CkRead :
    ∃ t u v, exec (.ckRead false 0) (ready []) = .next t ∧ exec (.ckAbsorb false 3) t = .next u ∧
      exec (.ckRead false 0) u = .next v := ⟨_, _, _, rfl, rfl, rfl⟩
theorem wit_CkReserved : (ready [.ck 3 true 9]).offered = .ck 3 true 9 :: [] := rfl
/-- CkSessionReadsFold, and the port forms of CksumOutIsFoldWithConstant and CksumInIsPlainFold (mode 0 likewise). -/
theorem wit_CkSession :
    (ready [.ck 0 true 9, .ck 1 true 5, .ck 2 false 0]).offered =
      .ck 0 true 9 :: (([(true, (5 : Byte))] : List (Bool × Byte)).map (fun p => PortEvent.ck 1 p.1 p.2) ++
        .ck 2 false 0 :: []) := rfl
/-- ChecksumResidue. -/
theorem wit_ChecksumResidue : (ready []).phase = .idle ∧ ([1] : List Byte) ≠ [] := by decide
theorem wit_XorFoldLaws : [(1 : Byte), 2].Perm [2, 1] := List.Perm.swap _ _ _
theorem wit_ChecksumErrorCoverage : (1 : Byte) ≠ 2 := by decide

/-- OperationsOutsideTheirPhaseDoNothing: the three clauses. -/
theorem wit_OutsidePhase :
    needsIdle (.enable 0x80 0) = true ∧ (framing 0 0).phase ≠ .idle ∧ needsDecoding (.segAcc none) = true ∧
      (ready []).phase ≠ .decoding ∧ (framing 0 0).phase = .framing ∧ ([7] : List Byte) ≠ [] ∧
      (decoding [7] 1).phase = .decoding := by decide

/-- PhaseDecidesAcceptance: each clause has a step that answers next. -/
theorem wit_Phase_framing : ∃ t, (framing 8 0).rst = false ∧ step (framing 8 0) = .next t := ⟨_, rfl, rfl⟩
theorem wit_Phase_decoding : ∃ t, step (decoding [7] 1) = .next t := ⟨_, rfl⟩
theorem wit_Phase_waiting :
    (∃ t, step (receiving 1 [.ck 0 true 0]) = .next t) ∧
      ∀ e ∈ (receiving 1 [.ck 0 true 0]).offered, isRx e = false := ⟨⟨_, rfl⟩, by decide⟩
theorem wit_Phase_receiving :
    (∃ t, step (receiving 1 [.cmd 0 0 0, .rx 5 true]) = .next t) ∧
      (receiving 1 [.cmd 0 0 0, .rx 5 true]).offered = [.cmd 0 0 0] ++ .rx 5 true :: [] := ⟨⟨_, rfl⟩, rfl⟩
theorem wit_Phase_idle :
    (∃ t, step (ready [.rx 5 true]) = .next t) ∧ (∃ t, step (ready [.rx 5 false]) = .next t) ∧
      (∃ t, step (ready [.cmd 0 0 0]) = .next t) ∧ (∃ t, step (ready [.ck 0 true 0]) = .next t) ∧
      (∃ t, step (ready []) = .next t) := ⟨⟨_, rfl⟩, ⟨_, rfl⟩, ⟨_, rfl⟩, ⟨_, rfl⟩, ⟨_, rfl⟩⟩

/-- CoercionKeepsValidArguments at the ends of its ranges (95 S2, S3). -/
theorem wit_Coercion :
    coerceRange 2 = 2 ∧ coerceRange 16 = 16 ∧ coerceRange 17 = 16 ∧ coerceRange (-1) = 16 ∧ coerceRate 500 = 500 ∧
      coerceRate 499 = 100000 ∧ coerceRate 1000000 = 1000000 ∧ coerceRate 1000001 = 100000 := by decide
/-- SetAccelRangeSendsFrame and SetSamplingRateSendsFrame. -/
theorem wit_CommandValues :
    16 = coerceRange (3 : Arg).toInt ∧ 500 = coerceRate (500 : Arg).toInt ∧ (0xF4 : Byte) = BitVec.ofNat 8 500 ∧
      (1 : Byte) = BitVec.ofNat 8 (500 / 256) ∧ (0 : Byte) = BitVec.ofNat 8 (500 / 65536) ∧
      (0 : Byte) = BitVec.ofNat 8 (500 / 16777216) := by decide
/-- CommandAcceptLatches and FramerRefinesCommand. -/
theorem wit_CommandOffered : (ready [.cmd 3 0x80 500]).offered = .cmd 3 0x80 500 :: [] := rfl
/-- FramingEmitsBodyByte at the first and at the last body byte. -/
theorem wit_FramingBody :
    (framing 0 0).fLen = bodyLength (framing 0 0).fOp ∧ (framing 0 0).fIdx < (framing 0 0).fLen ∧
      (framing 7 0x5D).fIdx < (framing 7 0x5D).fLen := by decide
theorem wit_FramingEnd : (framing 8 0x5D).phase = .framing ∧ (framing 8 0x5D).fIdx = (framing 8 0x5D).fLen := by decide

theorem wit_FirstByte : (ready [.rx 7 false]).offered = .rx 7 false :: [] ∧ 1 ≤ (ready []).cfg.nMax := by decide
/-- ReceivedByteIsFoldedAndStored: the last free cell, and a full buffer. -/
theorem wit_ReceivedByte :
    (receiving 8 [.rx 1 false]).vLen < 9 ∧ (receiving 8 [.rx 1 false]).phase = .receiving ∧
      9 ≤ (receiving 9 [.rx 1 false]).vLen ∧ (receiving 9 [.rx 1 false]).offered = .rx 1 false :: [] := by decide
/-- LastByteGivesVerdict: a wrong fold, a right one in a full buffer, a right one in the last free cell. -/
theorem wit_LastByte :
    (receiving 8 [.rx 1 true]).acc ^^^ 1 ≠ 0x00 ∧ (receiving 9 [.rx 0 true]).acc ^^^ 0 = 0x00 ∧
      9 ≤ (receiving 9 [.rx 0 true]).vLen ∧ (receiving 8 [.rx 0 true]).vOvf = false ∧
      (receiving 8 [.rx 0 true]).vLen < 9 := by decide
/-- ValidateCompletes: a mismatch, a valid frame one byte too long, and one that fills the buffer. -/
theorem wit_ValidateCompletes :
    validateFrame [1] = some .checksumMismatch ∧ validateFrame (List.replicate 10 0) = some (.ok (List.replicate 9 0)) ∧
      (whole []).cfg.nMax < (List.replicate 10 (0 : Byte)).length ∧
      validateFrame (List.replicate 9 0) = some (.ok (List.replicate 8 0)) ∧
      (List.replicate 9 (0 : Byte)).length ≤ (whole []).cfg.nMax := by decide
/-- RxEventsRefineValidate and BlockAnswersReceive. -/
theorem wit_RxOffered : (ready (rxEvents [7, 7])).offered = rxEvents [7, 7] ++ [] := rfl

/-- RxEventsRefineValidate in RECEIVING. -/
theorem wit_RxReceiving :
    (receiving 1 (rxEvents [5])).phase = .receiving ∧
      (receiving 1 (rxEvents [5])).offered = rxEvents [5] ++ [] ∧ ([5] : List Byte) ≠ [] := by decide
/-- BlockAnswersReceive in a session: bring-up complete and nothing in flight. -/
theorem wit_ReadFrame :
    (atReady []).mayReadFrame = true ∧ (atReady []).block.rst = false ∧
      (atReady []).block.cfg.grain = .event ∧ ([7, 7] : List Byte) ≠ [] := by decide

/-- SensorSegmentReadings, EnableAckStride, UnknownTagEndsFrame, DecodeCompletes. -/
theorem wit_decoding : (decoding [7, 1] 1).phase = .decoding := rfl
/-- FullSensorSegmentStep: the segment that ends with the payload. -/
theorem wit_FullSensor :
    (decoding [7, 3, 0x0A, 0, 0x14, 0, 0x1E, 0] 1).dCur + 7 ≤ (decoding [7, 3, 0x0A, 0, 0x14, 0, 0x1E, 0] 1).dLen ∧
      readCells (decoding [7, 3, 0x0A, 0, 0x14, 0, 0x1E, 0] 1).fb 1 7 =
        .ok [ReadingKind.mag.tag, 0x0A, 0, 0x14, 0, 0x1E, 0] := by decide
/-- TruncatedSensorStep: no byte and five bytes after the tag. -/
theorem wit_TruncatedSensor :
    (decoding [7, 2] 1).dCur < (decoding [7, 2] 1).dLen ∧ (decoding [7, 2] 1).dLen < 1 + 7 ∧
      (decoding [7, 4, 1, 2, 3, 4, 5] 1).dLen < 1 + 7 ∧
      fbGet (decoding [7, 4, 1, 2, 3, 4, 5] 1).fb 1 = some ReadingKind.gyro.tag := by decide
/-- EnableAckStep: exactly two bytes after the tag, and one. -/
theorem wit_EnableAck :
    1 + 3 ≤ (decoding [7, 1, 0x80, 1] 1).dLen ∧ fbGet (decoding [7, 1, 0x80, 1] 1).fb 1 = some 1 ∧
      fbGet (decoding [7, 1, 0x80, 1] 1).fb 2 = some 0x80 ∧ fbGet (decoding [7, 1, 0x80, 1] 1).fb 3 = some 1 ∧
      (decoding [7, 1, 0x81] 1).dLen < 1 + 3 := by decide
/-- UnknownTagAndEndSteps: tags 0 and 5, and a cursor at the end. -/
theorem wit_UnknownTag :
    fbGet (decoding [7, 0] 1).fb 1 = some 0 ∧ fbGet (decoding [7, 5] 1).fb 1 = some 5 ∧ (1 : Nat) < 2 ∧
      (decoding [7, 0] 2).dLen ≤ (decoding [7, 0] 2).dCur := by decide
/-- DecodeFollowsAlgorithm: the loop emits something from index 1. -/
theorem wit_DecodesFrom : ([7, 5] : List Byte) ≠ [] ∧ DecodesFrom [7, 5] 1 [.finish .unknownSegmentType 5 1] :=
  ⟨by decide, .unknown 1 5 rfl (by decide) (by decide) (by decide) (by decide)⟩
/-- PassesRefineDecode: a payload, and the empty one. -/
theorem wit_Passes :
    (decoding [7, 5] 1).dLen = 2 ∧ (decoding [7, 5] 1).dCur = min 1 2 ∧
      readCells (decoding [7, 5] 1).fb 0 2 = .ok [7, 5] ∧ (decoding [] 0).dCur = min 1 0 ∧
      readCells (decoding [] 0).fb 0 0 = .ok [] := by decide

/-- ChecksumOperationsFrame, CommandsFrame, SegmentsFrame: next states. -/
theorem wit_Frames :
    (∃ t, exec (.cksumIn [5]) (ready []) = .next t) ∧ (∃ t, exec (.ckReserved true 0) (ready []) = .next t) ∧
      (∃ t, exec (.enable 0x80 0) (ready []) = .next t) ∧ (∃ t, exec (.segAcc none) (decoding [7, 2] 1) = .next t) :=
  ⟨⟨_, rfl⟩, ⟨_, rfl⟩, ⟨_, rfl⟩, ⟨_, rfl⟩⟩
/-- OutputsIgnoreHistory: two idle states with different registers, and a frame that leaves both decoding. -/
theorem wit_History :
    (ready []).phase = .idle ∧ ({ ready [] with acc := 5, mode := true } : State).phase = .idle ∧
      (∃ t, exec (.validate [7, 7]) (ready []) = .next t ∧ t.phase = .decoding) ∧
      ∃ t, exec (.validate [7, 7]) { ready [] with acc := 5, mode := true } = .next t :=
  ⟨rfl, rfl, ⟨_, rfl, rfl⟩, ⟨_, rfl⟩⟩
theorem wit_ResetInput : ({ framing 3 0x78 with rst := true } : State).rst = true := rfl
/-- StepKeepsInvariant and StepNeverStops. -/
theorem wit_Step : State.reset.Inv ∧ ∃ t, step State.reset = .next t := ⟨reset_inv, _, rfl⟩
/-- StepRunsDecodedInstruction: its four clauses. -/
theorem wit_StepRuns :
    decodeCk 1 false 5 = .ckAbsorb false 5 ∧
      decodeOperation (whole [.cmd 1 0x80 0]).offered = .ok (.enable 0x80 0, []) ∧
      segmentBytes (decoding [7, 5] 1) = .ok [5] ∧ decodeSegment [5] = .ok (.segUnknown 5) ∧
      memRead (decoding [7, 5] 1) 0 2 = .ok [7, 5] := by decide
theorem wit_DecodeEncode : (Instr.segUnknown 0).wf = true := rfl
theorem wit_BringUp :
    (whole ((bringUp 8 100000).flatMap commandEvents)).offered = (bringUp 8 100000).flatMap commandEvents := rfl
/-- SessionIssuesBringUpInOrder: a session that has issued its first command. -/
theorem wit_Session :
    ∃ h, Session.run (.startup 8 100000 :: [.advance]) Session.initial = .next h ∧ h.issued = [.disable 0x80 0] :=
  ⟨_, rfl, rfl⟩
/-- SessionWaitsForPace: waiting for the CST, a command issued, and the CST coming. -/
theorem wit_SessionWaits :
    ({ Session.initial with awaitCst := true } : Session).awaitCst = true ∧
      (∃ h : Session, h.advance.issued ≠ h.issued) ∧
      ∃ h h' : Session, h.step .blockStep = .next h' ∧ h.awaitCst = true ∧ h'.awaitCst = false := by
  refine ⟨rfl, ⟨{ Session.initial with seq := .disableAll, todo := [.disable 0x80 0] }, by decide⟩, ?_⟩
  exact ⟨{ Session.initial with block := framing 8 0x5D, awaitCst := true }, _, rfl, rfl, rfl⟩

end Sys2Proof.Machine.Tests
end

section
/-! PROOFS. checksum_gen (spec/40_checksum_gen.md): what each CK operation answers in IDLE, the step that takes a CK event,
and the run of a whole CK sequence. -/

namespace Sys2Proof.Machine

open Sys2Proof

/-! ### What the checksum operations answer in IDLE -/

section
variable {s : State} (h : s.phase = .idle) (m : Bool) (b : Byte) (bytes : List Byte)
include h

theorem exec_ckStart_idle : exec (.ckStart m b) s = .next (s.startChecksum m) := whenIdle_idle h

theorem exec_ckAbsorb_idle : exec (.ckAbsorb m b) s = .next (s.absorb b) := whenIdle_idle h

theorem exec_ckRead_idle : exec (.ckRead m b) s = .next (s.emit [.ckResult (ckResult s.mode s.acc)]) := whenIdle_idle h

theorem exec_ckReserved_idle : exec (.ckReserved m b) s = .next s := whenIdle_idle h

theorem exec_cksumOut_idle :
    exec (.cksumOut bytes) s = .next ((s.checksumSequence true bytes).emit [.ckResult (outboundChecksum bytes)]) :=
  whenIdle_idle h

theorem exec_cksumIn_idle :
    exec (.cksumIn bytes) s = .next ((s.checksumSequence false bytes).emit [.ckResult (inboundChecksum bytes)]) :=
  whenIdle_idle h

end

/-! ### Folding -/

theorem State.absorb_zero (s : State) : s.absorb 0 = s := by
  simp [State.absorb]

theorem State.absorb_absorb_same (s : State) (b : Byte) : (s.absorb b).absorb b = s := by
  simp [State.absorb]

/-- Starting and absorbing the fold of the bytes is the whole sequence up to its read. -/
theorem State.startChecksum_absorb (s : State) (m : Bool) (bytes : List Byte) :
    (s.startChecksum m).absorb (xorFold bytes) = s.checksumSequence m bytes := by
  simp [State.startChecksum, State.absorb, State.checksumSequence]

/-- The constant sets a bit, so the two checksums differ (40 R112). -/
theorem outboundChecksum_ne_inboundChecksum (bytes : List Byte) : outboundChecksum bytes ≠ inboundChecksum bytes := by
  intro heq
  have hconst : outboundConstant = 0 := by simpa [outboundChecksum, inboundChecksum] using heq
  exact absurd hconst (by decide)

/-- 40 R110: a sequence followed by its own checksum folds to zero. -/
theorem inboundChecksum_append_self (bytes : List Byte) : inboundChecksum (bytes ++ [inboundChecksum bytes]) = 0 := by
  simp [inboundChecksum, xorFold_append]

/-! ### Steps that take a CK event -/

section
variable {s : State} (h : ReadyForEvents s) (m : Bool)
include h

theorem ReadyForEvents.offer (es : List PortEvent) : ReadyForEvents { s with offered := es } :=
  ⟨h.rst, h.phase, h.grain⟩

theorem ReadyForEvents.startChecksum : ReadyForEvents (s.startChecksum m) := ⟨h.rst, h.phase, h.grain⟩

theorem ReadyForEvents.absorb (b : Byte) : ReadyForEvents (s.absorb b) := ⟨h.rst, h.phase, h.grain⟩

theorem ReadyForEvents.checksumSequence (bytes : List Byte) : ReadyForEvents (s.checksumSequence m bytes) :=
  ⟨h.rst, h.phase, h.grain⟩

end

/-- A ready machine executes the CK event offered first (20 R60). -/
theorem step_ck {s : State} (h : ReadyForEvents s) {op : BitVec 2} {m : Bool} {b : Byte} {rest : List PortEvent}
    (ho : s.offered = .ck op m b :: rest) : step s = exec (decodeCk op m b) { s with offered := rest } :=
  step_of_action (a := .run (decodeCk op m b) rest) (by
    rw [nextAction_idle h.rst h.phase]
    simp only [idleAction, h.grain, ho])

section
variable {s : State} (h : ReadyForEvents s) {m : Bool} {b : Byte} {rest : List PortEvent}
include h

theorem step_ckStart (ho : s.offered = .ck 0 m b :: rest) :
    step s = .next (State.startChecksum { s with offered := rest } m) :=
  (step_ck h ho).trans (exec_ckStart_idle (h.offer rest).phase m b)

theorem step_ckAbsorb (ho : s.offered = .ck 1 m b :: rest) :
    step s = .next (State.absorb { s with offered := rest } b) :=
  (step_ck h ho).trans (exec_ckAbsorb_idle (h.offer rest).phase m b)

theorem step_ckRead (ho : s.offered = .ck 2 m b :: rest) :
    step s = .next (State.emit { s with offered := rest } [.ckResult (ckResult s.mode s.acc)]) :=
  (step_ck h ho).trans (exec_ckRead_idle (h.offer rest).phase m b)

theorem step_ckReserved (ho : s.offered = .ck 3 m b :: rest) : step s = .next { s with offered := rest } :=
  (step_ck h ho).trans (exec_ckReserved_idle (h.offer rest).phase m b)

end

/-- 40 R104, repeated: a run of CK_ABSORB events folds all their bytes into ACC. -/
theorem steps_absorbs (absorbs : List (Bool × Byte)) (rest : List PortEvent) {s : State} (h : ReadyForEvents s)
    (ho : s.offered = absorbs.map (fun p => PortEvent.ck 1 p.1 p.2) ++ rest) :
    steps absorbs.length s = .next (State.absorb { s with offered := rest } (xorFold (absorbs.map Prod.snd))) := by
  induction absorbs generalizing s with
  | nil =>
    obtain rfl : s.offered = rest := ho
    exact congrArg _ s.absorb_zero.symm
  | cons p absorbs ih =>
    calc steps (absorbs.length + 1) s
      _ = steps absorbs.length
            (State.absorb { s with offered := absorbs.map (fun p => .ck 1 p.1 p.2) ++ rest } p.2) :=
          steps_succ_of_next (step_ckAbsorb h ho) _
      _ = .next ((State.absorb { s with offered := rest } p.2).absorb (xorFold (absorbs.map Prod.snd))) :=
          ih ((h.offer _).absorb p.2) rfl
      _ = .next (State.absorb { s with offered := rest } (xorFold ((p :: absorbs).map Prod.snd))) := by
          simp [State.absorb, BitVec.xor_assoc]

/-- 40 R107: CK_START(m), any number of CK_ABSORB and a CK_READ, event by event, are the whole sequence. -/
theorem steps_checksumSequence {m : Bool} {b0 : Byte} {absorbs : List (Bool × Byte)} {mr : Bool} {br : Byte}
    {rest : List PortEvent} {s : State} (h : ReadyForEvents s)
    (ho : s.offered = .ck 0 m b0 :: (absorbs.map (fun p => PortEvent.ck 1 p.1 p.2) ++ .ck 2 mr br :: rest)) :
    steps (absorbs.length + 2) s =
      .next ((State.checksumSequence { s with offered := rest } m (absorbs.map Prod.snd)).emit
        [.ckResult (ckResult m (xorFold (absorbs.map Prod.snd)))]) := by
  calc steps (absorbs.length + 1 + 1) s
    _ = steps (absorbs.length + 1) (State.startChecksum
          { s with offered := absorbs.map (fun p => .ck 1 p.1 p.2) ++ .ck 2 mr br :: rest } m) :=
        steps_succ_of_next (step_ckStart h ho) _
    _ = steps 1 (State.checksumSequence { s with offered := .ck 2 mr br :: rest } m (absorbs.map Prod.snd)) := by
        rw [← State.startChecksum_absorb]
        exact steps_add (steps_absorbs absorbs _ ((h.offer _).startChecksum m) rfl) 1
    _ = .next ((State.checksumSequence { s with offered := rest } m (absorbs.map Prod.snd)).emit
          [.ckResult (ckResult m (xorFold (absorbs.map Prod.snd)))]) :=
        steps_succ_of_next (step_ckRead ((h.offer _).checksumSequence m _) rfl) 0

/-! ### The statements -/

/-- Settles O1: CK_START is `startChecksum`, which a command's and a frame's start contain. -/
theorem ckStartLoadsModeClearsAcc : Obligations.CkStartLoadsModeClearsAcc :=
  ⟨fun m b _ h => ⟨rfl, exec_ckStart_idle h m b⟩, fun _ _ _ _ => ⟨rfl, rfl⟩, fun _ => ⟨rfl, rfl⟩⟩

/-- Settles O2: CK_ABSORB is `absorb`, which zero leaves alone and which is its own inverse. -/
theorem ckAbsorbFoldsOneByte : Obligations.CkAbsorbFoldsOneByte := by
  intro m b s h
  have hexec := exec_ckAbsorb_idle h m b
  refine ⟨rfl, hexec, ?_, ?_⟩
  · rintro rfl
    rw [hexec, s.absorb_zero]
  · intro t ht
    obtain rfl : s.absorb b = t := Host.Outcome.next.inj (hexec.symm.trans ht)
    rw [exec_ckAbsorb_idle (s := s.absorb b) h, s.absorb_absorb_same]

/-- Settles O3: CK_READ only emits, so the byte absorbed after it is folded into the ACC it found. -/
theorem ckReadAppliesConstantAtRead : Obligations.CkReadAppliesConstantAtRead := by
  intro m b s h
  refine ⟨rfl, exec_ckRead_idle h m b, ?_⟩
  intro t u v m' c ht hu hv
  obtain rfl := Host.Outcome.next.inj ((exec_ckRead_idle h m b).symm.trans ht)
  obtain rfl := Host.Outcome.next.inj ((exec_ckAbsorb_idle (s := s.emit _) h m' c).symm.trans hu)
  obtain rfl := Host.Outcome.next.inj ((exec_ckRead_idle (s := (s.emit _).absorb c) h m b).symm.trans hv)
  rfl

/-- Settles O4: the reserved operation is the identity, and its event is only taken off. -/
theorem ckReservedChangesNothing : Obligations.CkReservedChangesNothing :=
  ⟨fun m b _ h => exec_ckReserved_idle h m b,
    fun _ _ _ _ h ho => step_ckReserved h ho⟩

/-- Settles O5: the port form reaches the sequence with `ckResult true`, which is the outbound checksum. -/
theorem cksumOutIsFoldWithConstant : Obligations.CksumOutIsFoldWithConstant := by
  refine ⟨fun bytes _ h => exec_cksumOut_idle h bytes, ?_, ?_, by decide, by decide⟩
  · intro b0 absorbs mr br rest s h ho
    rw [steps_checksumSequence h ho, ckResult_outbound, exec_cksumOut_idle (h.offer rest).phase,
      outboundChecksum]
  · exact fun bytes => ⟨rfl, outboundChecksum_ne_inboundChecksum bytes⟩

/-- Settles O6: the port form reaches the sequence with `ckResult false`, which is the plain fold. -/
theorem cksumInIsPlainFold : Obligations.CksumInIsPlainFold := by
  refine ⟨fun bytes _ h => exec_cksumIn_idle h bytes, ?_, fun _ => rfl, rfl, ?_, inboundChecksum_append_self⟩
  · intro b0 absorbs mr br rest s h ho
    rw [steps_checksumSequence h ho, ckResult_inbound, exec_cksumIn_idle (h.offer rest).phase,
      inboundChecksum]
  · intro b
    simp [inboundChecksum]

end Sys2Proof.Machine
end

section
/-! PROOFS. command_framer (spec/41_command_framer.md): the coerced arguments, the bytes of the frames, what a whole
command answers in IDLE, and the steps of the byte-serial framer. -/

namespace Sys2Proof.Machine

open Sys2Proof

/-! ### Coerced arguments (41 R121, R122) -/

theorem coerceRange_valid {r : Int} (h : r = 2 ∨ r = 4 ∨ r = 6 ∨ r = 8 ∨ r = 16) : (coerceRange r : Int) = r := by
  rw [coerceRange, if_pos h]
  omega

theorem coerceRange_invalid {r : Int} (h : ¬(r = 2 ∨ r = 4 ∨ r = 6 ∨ r = 8 ∨ r = 16)) : coerceRange r = 16 := if_neg h

/-- Whatever the argument, the coerced range is one of the five (30 R80). -/
theorem coerceRange_cases (r : Int) :
    coerceRange r = 2 ∨ coerceRange r = 4 ∨ coerceRange r = 6 ∨ coerceRange r = 8 ∨ coerceRange r = 16 := by
  by_cases h : r = 2 ∨ r = 4 ∨ r = 6 ∨ r = 8 ∨ r = 16
  · have hkept := coerceRange_valid h
    omega
  · simp [coerceRange_invalid h]

theorem rangeCoerced_eq (r : Int) : rangeCoerced r = decide (¬(r = 2 ∨ r = 4 ∨ r = 6 ∨ r = 8 ∨ r = 16)) := by
  simp [rangeCoerced, beq_eq_decide, Bool.and_assoc]

theorem coerceRate_valid {r : Int} (h : 500 ≤ r ∧ r ≤ 1000000) : (coerceRate r : Int) = r := by
  rw [coerceRate, if_pos h]
  omega

theorem coerceRate_invalid {r : Int} (h : r < 500 ∨ 1000000 < r) : coerceRate r = 100000 := if_neg (by omega)

theorem coerceRate_le (r : Int) : coerceRate r ≤ 1000000 := by
  by_cases h : 500 ≤ r ∧ r ≤ 1000000
  · have hkept := coerceRate_valid h
    omega
  · have hdefault := coerceRate_invalid (r := r) (by omega)
    omega

theorem rateCoerced_eq (r : Int) : rateCoerced r = decide (r < 500 ∨ 1000000 < r) := by
  rw [rateCoerced, ← Bool.decide_and, ← decide_not, decide_eq_decide]
  omega

/-! ### The bytes of the frames -/

/-- 40 R111: in outbound mode the start marker and the constant cancel. -/
theorem outboundChecksum_startMarker (bs : List Byte) : outboundChecksum (startMarker :: bs) = xorFold bs := by
  calc startMarker ^^^ xorFold bs ^^^ startMarker
    _ = startMarker ^^^ startMarker ^^^ xorFold bs := by ac_rfl
    _ = xorFold bs := by simp

theorem extractLsb'_ofNat {w k n : Nat} (v : Nat) (h : k + n ≤ w) :
    (BitVec.ofNat w v).extractLsb' k n = BitVec.ofNat n (v / 2 ^ k) := by
  refine BitVec.eq_of_getLsbD_eq fun i hi => ?_
  have hinside : k + i < w := by omega
  rw [BitVec.getLsbD_extractLsb', BitVec.getLsbD_ofNat, BitVec.getLsbD_ofNat, Nat.testBit_div_two_pow, Nat.add_comm i]
  simp [hi, hinside]

/-- 41 R123: the bytes of a number, the least significant first. -/
theorem leU32_ofNat (v : Nat) :
    leU32 (BitVec.ofNat 32 v) =
      [BitVec.ofNat 8 v, BitVec.ofNat 8 (v / 256), BitVec.ofNat 8 (v / 65536), BitVec.ofNat 8 (v / 16777216)] := by
  simp [leU32, extractLsb'_ofNat]

theorem xorFold_onOff (sid onoff : Byte) : xorFold [0x02, sid, onoff] = sid ^^^ (0x02 ^^^ onoff) := by
  simp only [xorFold_cons, xorFold_nil]
  ac_rfl

theorem xorFold_range (g : Byte) : xorFold [0x03, 0x80, 0x04, g] = g ^^^ 0x87 := by
  simp only [xorFold_cons, xorFold_nil]
  rw [show (0x87 : Byte) = 0x03 ^^^ 0x80 ^^^ 0x04 from rfl]
  ac_rfl

theorem xorFold_rate (sid r0 r1 r2 r3 : Byte) :
    xorFold [0x06, sid, 0x02, r0, r1, r2, r3] = sid ^^^ 0x04 ^^^ r0 ^^^ r1 ^^^ r2 ^^^ r3 := by
  simp only [xorFold_cons, xorFold_nil]
  rw [show (0x04 : Byte) = 0x06 ^^^ 0x02 from rfl]
  ac_rfl

/-! ### Whole commands -/

/-- The four commands are one operation, on the values that the acceptance of 41 R134 latches. -/
theorem exec_cmd_idle {s : State} (h : s.phase = .idle) (op : BitVec 2) (sid : Byte) (arg : Arg) :
    exec (decodeCmd op sid arg) s =
      .next (s.sendCommand op sid (latchedValue op arg) (latchedCoerced op arg)
        (latchedBody op sid (latchedValue op arg))) := by
  rcases op_cases op with rfl | rfl | rfl | rfl <;> exact whenIdle_idle h

/-- A whole command whose body is the start marker and `bs`: the checksum byte is the fold of `bs` alone. -/
theorem exec_cmd_idle_of_body {s : State} (h : s.phase = .idle) {op : BitVec 2} {sid : Byte} {arg : Arg}
    {bs : List Byte} {c : Byte} (hbody : latchedBody op sid (latchedValue op arg) = startMarker :: bs)
    (hsum : xorFold bs = c) :
    exec (decodeCmd op sid arg) s =
      .next { s with
        phase := .idle, mode := true, acc := xorFold (startMarker :: bs)
        fOp := op, fSid := sid, fVal := latchedValue op arg, fCoerced := latchedCoerced op arg
        fLen := bodyLength op, fIdx := bodyLength op
        emitted := s.emitted ++ .tx startMarker false ::
          (bs.map (OutEvent.tx · false) ++ [.tx c true, .cst (latchedCoerced op arg)]) } := by
  have hlen : BitVec.ofNat 4 (startMarker :: bs).length = bodyLength op := by
    rw [← hbody, latchedBody_length, BitVec.ofNat_toNat, BitVec.setWidth_eq]
  have hevents : frameEvents (startMarker :: bs) ++ [.cst (latchedCoerced op arg)] =
      .tx startMarker false :: (bs.map (OutEvent.tx · false) ++ [.tx c true, .cst (latchedCoerced op arg)]) := by
    simp [frameEvents, outboundChecksum_startMarker, hsum]
  rw [exec_cmd_idle h, hbody, State.sendCommand, hlen, hevents]
  rfl

/-! ### Steps of the byte-serial framer -/

/-- A ready machine accepts the CMD event offered first (20 R60). -/
theorem step_cmd {s : State} (h : ReadyForEvents s) {op : BitVec 2} {sid : Byte} {arg : Arg} {rest : List PortEvent}
    (ho : s.offered = .cmd op sid arg :: rest) :
    step s = .next (State.acceptCommand { s with offered := rest } op sid arg) :=
  step_of_action (a := .accept op sid arg rest) (by
    rw [nextAction_idle h.rst h.phase]
    simp only [idleAction, h.grain, ho])

theorem framerStep_at_end {s : State} (h : s.fIdx = s.fLen) : framerStep s = .next s.sendChecksumByte := if_pos h

theorem framerStep_before_end {s : State} (h : s.fIdx < s.fLen) {b : Byte}
    (hb : bodyByte s.fOp s.fSid s.fVal s.fIdx = some b) : framerStep s = .next (s.sendBodyByte b) := by
  rw [framerStep, if_neg (BitVec.ne_of_lt h), if_pos h, hb]

/-! ### The statements -/

/-- Settles O14: each clause is the branch of its coercion and the closed form of its flag. -/
theorem coercionKeepsValidArguments : Obligations.CoercionKeepsValidArguments := by
  intro r
  rw [rangeCoerced_eq, rateCoerced_eq]
  refine ⟨fun h => ⟨coerceRange_valid h, ?_⟩, fun h => ⟨coerceRange_invalid h, decide_eq_true h⟩,
    fun h => ⟨coerceRate_valid h, ?_⟩, fun h => ⟨coerceRate_invalid h, decide_eq_true h⟩⟩
  · exact decide_eq_false (not_not_intro h)
  · exact decide_eq_false (by omega)

/-- Settles O17: the body holds the low byte of the coerced range, which is one of the five. -/
theorem setAccelRangeSendsFrame : Obligations.SetAccelRangeSendsFrame := by
  intro sid arg s g h hg
  subst hg
  have hbody : latchedBody 2 sid (latchedValue 2 arg) =
      startMarker :: [0x03, 0x80, 0x04, BitVec.ofNat 8 (coerceRange arg.toInt)] := by
    simp [latchedBody, latchedValue, rangeBody, rangeValue, extractLsb'_ofNat]
  rw [← rangeCoerced_eq]
  exact ⟨rfl, coerceRange_cases _, exec_cmd_idle_of_body h hbody (xorFold_range _)⟩

/-- Settles O18: the body holds the coerced rate little-endian, and a rate of at most 1000000 has no fourth byte. -/
theorem setSamplingRateSendsFrame : Obligations.SetSamplingRateSendsFrame := by
  intro sid arg s v r0 r1 r2 r3 h hv h0 h1 h2 h3
  have hbody : latchedBody 3 sid (latchedValue 3 arg) = startMarker :: [0x06, sid, 0x02, r0, r1, r2, r3] := by
    rw [h0, h1, h2, h3, hv]
    exact congrArg ([startMarker, 0x06, sid, 0x02] ++ ·) (leU32_ofNat _)
  have hhigh : v / 16777216 = 0 := by
    have hle := coerceRate_le arg.toInt
    omega
  rw [← rateCoerced_eq]
  refine ⟨rfl, h3.trans (congrArg _ hhigh), ?_⟩
  rw [hv]
  exact exec_cmd_idle_of_body h hbody (xorFold_rate ..)

/-- Settles O20: the step is `acceptCommand`, whose registers are these. -/
theorem commandAcceptLatches : Obligations.CommandAcceptLatches :=
  fun _ _ _ _ _ h ho => step_cmd h ho

/-- Settles O21: the table of R135 is the latched body, which is as long as F_LEN says, so it has no blank before it. -/
theorem framingEmitsBodyByte : Obligations.FramingEmitsBodyByte := by
  intro s hrst hphase hlen hlt
  have hidx : s.fIdx.toNat < (latchedBody s.fOp s.fSid s.fVal).length := by
    rw [latchedBody_length, ← hlen]
    exact hlt
  have hget := List.getElem?_eq_getElem hidx
  have hbyte := (bodyByte_eq s.fOp s.fSid s.fVal s.fIdx (hlen ▸ hlt)).trans hget
  exact ⟨_, hget, (step_framing hrst hphase).trans (framerStep_before_end hlt hbyte)⟩

/-- Settles O15: the body is that of the on/off frame with 0, and the fold after the marker is `sid ^ 0x02`. -/
theorem disableSendsFrame : Obligations.DisableSendsFrame :=
  fun sid _ _ h => ⟨rfl, exec_cmd_idle_of_body (op := 0) h rfl (xorFold_onOff sid 0x00)⟩

/-- Settles O16: the body is that of the on/off frame with 1, and the fold after the marker is `sid ^ 0x03`. -/
theorem enableSendsFrame : Obligations.EnableSendsFrame :=
  fun sid _ _ h => ⟨rfl, exec_cmd_idle_of_body (op := 1) h rfl (xorFold_onOff sid 0x01)⟩

/-- Settles O22: at F_IDX = F_LEN the bytes emitted, whose fold the invariant keeps in ACC, are the whole body. -/
theorem framingEndsWithChecksum : Obligations.FramingEndsWithChecksum := by
  intro s hrst hphase hend
  refine ⟨(step_framing hrst hphase).trans (framerStep_at_end hend), fun hinv => ?_⟩
  obtain ⟨hmode, hlen, -, hfold⟩ := hinv.framing hphase
  rw [hend, hlen, ← latchedBody_length, List.take_length] at hfold
  exact ⟨hmode, hfold⟩

end Sys2Proof.Machine
end

section
/-! PROOFS. frame_validator (spec/42_frame_validator.md): what `validate` answers. -/

namespace Sys2Proof.Machine

open Sys2Proof

/-- 42 R151: a non-empty frame is split into its payload and the received checksum, its last byte. -/
theorem validateFrame_concat (P : List Byte) (rc : Byte) :
    validateFrame (P ++ [rc]) = some (if inboundChecksum P = rc then .ok P else .checksumMismatch) := by
  have hlast : (P ++ [rc]).getLast? = some rc := List.getLast?_concat
  have hinit : (P ++ [rc]).dropLast = P := List.dropLast_concat
  rw [validateFrame, hlast, hinit]

/-! ### The statements -/

/-- Settles O27: the frame is written as its payload and last byte already, so this is the equation of `validate`. -/
theorem validateComparesLastByte : Obligations.ValidateComparesLastByte := validateFrame_concat

end Sys2Proof.Machine
end

section
/-! PROOFS. field_decoder (spec/43_field_decoder.md): the sign conversion and the values of a READING, one pass over an
undefined tag or the end of the payload, and the loop of DECODE read over the indexes of the payload. -/

namespace Sys2Proof.Machine

open Sys2Proof

/-! ### The sign conversion (43 R178) -/

/-- Fifteen ones, exclusive-or: the complement on fifteen bits. -/
theorem ones_xor {k : Nat} (h : k < 2 ^ 15) : 32767 ^^^ k = 32767 - k := by
  have hnot := congrArg BitVec.toNat (BitVec.allOnes_xor (x := BitVec.ofNatLT k h))
  simpa using hnot

/-- Without the sign bit the or has nothing to add. -/
theorem intOr_neg_zero (k : Nat) : intOr (-((0 : Nat) : Int)) k = k :=
  congrArg Int.ofNat (Nat.zero_or k)

/-- -32768 has ones from bit 15 on and no other, so the or with a number of fifteen bits is their sum. -/
theorem intOr_neg_sign {k : Nat} (h : k < 2 ^ 15) : intOr (-((32768 : Nat) : Int)) k = k - 32768 := by
  have hand : 32767 &&& k = k := by
    rw [Nat.and_comm, Nat.and_two_pow_sub_one_eq_mod k 15, Nat.mod_eq_of_lt h]
  calc intOr (Int.negSucc 32767) (Int.ofNat k)
    _ = Int.negSucc (32767 ^^^ (32767 &&& k)) := rfl
    _ = Int.negSucc (32767 - k) := by rw [hand, ones_xor h]
    _ = k - 32768 := by omega

/-- The source's formula is the two's complement value (decision D14). -/
theorem signed16_eq_toInt (v : Count) : signed16 v = v.toInt := by
  have hlow : v.toNat &&& 0x7fff = v.toNat % 2 ^ 15 := Nat.and_two_pow_sub_one_eq_mod _ 15
  have hhigh : v.toNat &&& 0x8000 = v.msb.toNat * 2 ^ 15 := Nat.and_two_pow _ 15
  have hmsb : v.msb = decide (2 ^ 15 ≤ v.toNat) := BitVec.msb_eq_decide v
  have hlt := v.isLt
  rw [signed16, hlow, hhigh, BitVec.toInt_eq_msb_cond]
  cases h : v.msb with
  | false =>
    have hsmall : v.toNat < 2 ^ 15 := by simpa [h] using hmsb
    rw [Nat.mod_eq_of_lt hsmall, Bool.toNat_false, Nat.zero_mul, intOr_neg_zero, if_neg Bool.false_ne_true]
  | true =>
    have hbig : 2 ^ 15 ≤ v.toNat := by simpa [h] using hmsb
    have hor := intOr_neg_sign (k := v.toNat % 2 ^ 15) (by omega)
    rw [Bool.toNat_true, Nat.one_mul, if_pos rfl]
    exact hor.trans (by omega)

/-- The axis register holds the pattern it was read from. -/
@[simp] theorem axisCount_eq (v : Count) : axisCount v = v := by
  rw [axisCount, signed16_eq_toInt, BitVec.ofInt_toInt]

theorem signed16_bounds (v : Count) : -32768 ≤ signed16 v ∧ signed16 v ≤ 32767 := by
  rw [signed16_eq_toInt]
  exact ⟨v.le_toInt, Int.le_of_lt_add_one v.toInt_lt⟩

/-! ### The values of a READING (43 R179) -/

theorem isMilli_eq (kind : ReadingKind) : isMilli kind = (kind == .acc) := by cases kind <;> rfl

theorem axisValue_milli (v : Count) : axisValue true v = (signed16 v : ℚ) / 1000 := by
  rw [signed16_eq_toInt]
  rfl

theorem axisValue_raw (v : Count) : axisValue false v = (signed16 v : ℚ) := by
  rw [signed16_eq_toInt]
  rfl

/-! ### Tags and the bytes after them (43 R175 to R182) -/

theorem sensorKind_tag (kind : ReadingKind) : sensorKind kind.tag = some kind := sensorKind_eq_some.2 rfl

theorem sensorKind_one : sensorKind 1 = none := rfl

theorem sensorKind_eq_none {t : Byte} : sensorKind t = none ↔ t ≠ 2 ∧ t ≠ 3 ∧ t ≠ 4 := by
  constructor
  · intro h
    refine ⟨?_, ?_, ?_⟩ <;> rintro rfl <;> exact absurd h (by decide)
  · rintro ⟨h2, h3, h4⟩
    rw [sensorKind, if_neg h2, if_neg h3, if_neg h4]

theorem decodeSegment_unknown {t : Byte} (h1 : t ≠ 1) (hk : sensorKind t = none) (rest : List Byte) :
    decodeSegment (t :: rest) = .ok (.segUnknown t) := by
  rw [decodeSegment_cons, hk]
  exact if_neg h1

theorem axesOf_eq_none {bs : List Byte} : axesOf bs = none ↔ bs.length < 6 := by
  match bs with
  | _ :: _ :: _ :: _ :: _ :: _ :: _ => simp [axesOf]
  | [] | [_] | [_, _] | [_, _, _] | [_, _, _, _] | [_, _, _, _, _] => simp [axesOf]

theorem ackOf_eq_none {bs : List Byte} : ackOf bs = none ↔ bs.length < 2 := by
  match bs with
  | _ :: _ :: _ => simp [ackOf]
  | [] | [_] => simp [ackOf]

/-- An index inside a list is where its element begins the remaining list. -/
theorem drop_of_getElem? {P : List Byte} {i : Nat} {b : Byte} (h : P[i]? = some b) :
    P.drop i = b :: P.drop (i + 1) := by
  obtain ⟨hi, rfl⟩ := List.getElem?_eq_some_iff.1 h
  exact List.drop_eq_getElem_cons hi

/-- A stride of six bytes after the tag, which drops the axes. -/
theorem drop_stride (P : List Byte) (cur : Nat) : (P.drop (cur + 1)).drop 6 = P.drop (cur + 7) := List.drop_drop

/-- A stride that is clamped to the end of the payload leaves the same bytes. -/
theorem drop_clamped (P : List Byte) (i : Nat) : P.drop (min i P.length) = P.drop i := by
  rcases Nat.le_total i P.length with hi | hi
  · rw [Nat.min_eq_left hi]
  · rw [Nat.min_eq_right hi, List.drop_length, List.drop_eq_nil_of_le hi]

/-- Six bytes from an index on, byte by byte. -/
theorem axesOf_drop {P : List Byte} {i : Nat} {v : Triple} :
    axesOf (P.drop i) = some v ↔
      ∃ lx hx ly hy lz hz, P[i]? = some lx ∧ P[i + 1]? = some hx ∧ P[i + 2]? = some ly ∧ P[i + 3]? = some hy ∧
        P[i + 4]? = some lz ∧ P[i + 5]? = some hz ∧ v = { x := le16 lx hx, y := le16 ly hy, z := le16 lz hz } := by
  constructor
  · intro h
    have hget (j : Nat) : P[i + j]? = (P.drop i)[j]? := List.getElem?_drop.symm
    unfold axesOf at h
    split at h
    next lx hx ly hy lz hz _ hbytes =>
      cases h
      rw [hbytes] at hget
      exact ⟨lx, hx, ly, hy, lz, hz, hget 0, hget 1, hget 2, hget 3, hget 4, hget 5, rfl⟩
    next => cases h
  · rintro ⟨lx, hx, ly, hy, lz, hz, h0, h1, h2, h3, h4, h5, rfl⟩
    rw [drop_of_getElem? h0, drop_of_getElem? h1, drop_of_getElem? h2, drop_of_getElem? h3, drop_of_getElem? h4,
      drop_of_getElem? h5]
    rfl

/-- Two bytes from an index on, byte by byte. -/
theorem ackOf_drop {P : List Byte} {i : Nat} {a : AckBytes} :
    ackOf (P.drop i) = some a ↔ P[i]? = some a.sid ∧ P[i + 1]? = some a.flag := by
  constructor
  · intro h
    have hget (j : Nat) : P[i + j]? = (P.drop i)[j]? := List.getElem?_drop.symm
    unfold ackOf at h
    split at h
    next sid flag _ hbytes =>
      cases h
      rw [hbytes] at hget
      exact ⟨hget 0, hget 1⟩
    next => cases h
  · rintro ⟨h0, h1⟩
    rw [drop_of_getElem? h0, drop_of_getElem? h1]
    rfl

/-! ### One pass from the frame buffer (43 R188) -/

section
variable {s : State} (h : DecodingByPasses s)
include h

theorem step_pass : step s = perform s (passAction s) :=
  step_of_action (by
    rw [nextAction_decoding h.rst h.phase, decodeAction, if_neg]
    simp [h.grain])

/-- 43 R183. -/
theorem step_pass_atEnd (hend : s.dLen ≤ s.dCur) : step s = .next s.decodeEnd := by
  rw [step_pass h, passAction, if_pos hend]
  rfl

/-- A pass executes the segment that is fetched at the cursor. -/
theorem step_pass_segment {bs : List Byte} {i : Instr} (hlt : s.dCur < s.dLen) (hfetch : segmentBytes s = .ok bs)
    (hdecode : decodeSegment bs = .ok i) : step s = exec i s := by
  rw [step_pass h, passAction, if_neg (Nat.not_le.2 hlt), hfetch]
  simp only [hdecode]
  rfl

end

/-- The tag byte at a cursor inside the payload can be read (20 R55). -/
theorem memRead_tag {s : State} {t : Byte} (hlt : s.dCur < s.dLen) (htag : fbGet s.fb s.dCur = some t) :
    memRead s s.dCur 1 = .ok [t] :=
  (memRead_of_le hlt).trans (readCells_succ_ok.2 ⟨t, [], htag, rfl, rfl⟩)

/-- After an undefined tag nothing is read. -/
theorem segmentBytes_unknown {s : State} {t : Byte} (hlt : s.dCur < s.dLen) (htag : fbGet s.fb s.dCur = some t)
    (h1 : t ≠ 1) (hk : sensorKind t = none) : segmentBytes s = .ok [t] := by
  obtain ⟨h2, h3, h4⟩ := sensorKind_eq_none.1 hk
  have hnone : memRead s (s.dCur + 1) 0 = .ok [] := memRead_of_le hlt
  simp only [segmentBytes, memRead_tag hlt htag, List.cons.injEq, and_true, h1, h2, h3, h4, or_self, if_false,
    Nat.not_lt_zero, hnone, List.append_nil]

/-! ### The loop of DECODE over indexes (43 R171) -/

/-- The events that the loop of DECODE emits from an index of the payload on. -/
def eventsFrom (P : List Byte) (fuel cur : Nat) : List EvEvent := (decodeLoop P.length fuel cur (P.drop cur)).1

/-- The length byte is skipped (43 R173). -/
theorem decodePayload_eq_eventsFrom {P : List Byte} (h : P ≠ []) : decodePayload P = eventsFrom P P.length 1 := by
  obtain ⟨_, _, rfl⟩ := List.exists_cons_of_ne_nil h
  rfl

section
variable {P : List Byte} {cur : Nat} (fuel : Nat)

theorem eventsFrom_atEnd (hend : P.length ≤ cur) : eventsFrom P (fuel + 1) cur = [.finish .ok 0 0] := by
  rw [eventsFrom, List.drop_eq_nil_of_le hend]
  rfl

theorem eventsFrom_sensor {kind : ReadingKind} {v : Triple} (htag : P[cur]? = some kind.tag)
    (hv : axesOf (P.drop (cur + 1)) = some v) :
    eventsFrom P (fuel + 1) cur = readingOf kind v :: eventsFrom P fuel (cur + 7) := by
  simp only [eventsFrom, drop_of_getElem? htag, decodeLoop, sensorKind_tag, hv, drop_stride]

theorem eventsFrom_sensorCut {kind : ReadingKind} (htag : P[cur]? = some kind.tag)
    (hcut : axesOf (P.drop (cur + 1)) = none) :
    eventsFrom P (fuel + 1) cur = [.finish .truncatedSegment kind.tag cur] := by
  simp only [eventsFrom, drop_of_getElem? htag, decodeLoop, sensorKind_tag, hcut]

theorem eventsFrom_ack {a : AckBytes} (htag : P[cur]? = some 1) (ha : ackOf (P.drop (cur + 1)) = some a) :
    eventsFrom P (fuel + 1) cur = .ack a.sid a.flag :: eventsFrom P fuel (min (cur + 7) P.length) := by
  simp only [eventsFrom, drop_of_getElem? htag, decodeLoop, sensorKind_one, if_true, ha, drop_stride, drop_clamped]

theorem eventsFrom_ackCut (htag : P[cur]? = some 1) (hcut : ackOf (P.drop (cur + 1)) = none) :
    eventsFrom P (fuel + 1) cur = [.finish .truncatedSegment 1 cur] := by
  simp only [eventsFrom, drop_of_getElem? htag, decodeLoop, sensorKind_one, if_true, hcut]

theorem eventsFrom_unknown {t : Byte} (htag : P[cur]? = some t) (h1 : t ≠ 1) (hk : sensorKind t = none) :
    eventsFrom P (fuel + 1) cur = [.finish .unknownSegmentType t cur] := by
  simp only [eventsFrom, drop_of_getElem? htag, decodeLoop, hk, if_neg h1]

end

theorem readingOf_eq (kind : ReadingKind) (v : Triple) :
    readingOf kind v = .reading kind (axisCount v.x) (axisCount v.y) (axisCount v.z) (kind == .acc) := by
  rw [readingOf, isMilli_eq]

/-- The loop's events are derived by its rules: each of its branches is one rule. -/
theorem decodesFrom_eventsFrom {P : List Byte} {fuel cur : Nat} (hfuel : P.length - cur < fuel) :
    DecodesFrom P cur (eventsFrom P fuel cur) := by
  induction fuel generalizing cur with
  | zero => exact absurd hfuel (Nat.not_lt_zero _)
  | succ fuel ih =>
    by_cases hend : P.length ≤ cur
    · rw [eventsFrom_atEnd fuel hend]
      exact .atEnd cur hend
    obtain ⟨t, htag⟩ : ∃ t, P[cur]? = some t := ⟨_, List.getElem?_eq_getElem (Nat.not_le.1 hend)⟩
    cases hk : sensorKind t with
    | some kind =>
      obtain rfl := sensorKind_eq_some.1 hk
      cases hv : axesOf (P.drop (cur + 1)) with
      | some v =>
        rw [eventsFrom_sensor fuel htag hv, readingOf_eq]
        obtain ⟨lx, hx, ly, hy, lz, hz, h1, h2, h3, h4, h5, h6, rfl⟩ := axesOf_drop.1 hv
        exact .sensor cur kind lx hx ly hy lz hz _ htag h1 h2 h3 h4 h5 h6 (ih (by omega))
      | none =>
        rw [eventsFrom_sensorCut fuel htag hv]
        exact .sensorCut cur kind htag (List.length_drop ▸ axesOf_eq_none.1 hv)
    | none =>
      by_cases h1 : t = 1
      · subst h1
        cases ha : ackOf (P.drop (cur + 1)) with
        | some a =>
          rw [eventsFrom_ack fuel htag ha]
          obtain ⟨hsid, hflag⟩ := ackOf_drop.1 ha
          exact .ack cur a.sid a.flag _ htag hsid hflag (ih (by omega))
        | none =>
          rw [eventsFrom_ackCut fuel htag ha]
          exact .ackCut cur htag (List.length_drop ▸ ackOf_eq_none.1 ha)
      · rw [eventsFrom_unknown fuel htag h1 hk]
        obtain ⟨h2, h3, h4⟩ := sensorKind_eq_none.1 hk
        exact .unknown cur t htag h1 h2 h3 h4

/-- Whatever the rules derive, the loop emits: each rule is one of its branches. -/
theorem DecodesFrom.eq_eventsFrom {P : List Byte} {fuel cur : Nat} {out : List EvEvent} (h : DecodesFrom P cur out)
    (hfuel : P.length - cur < fuel) : out = eventsFrom P fuel cur := by
  induction fuel generalizing cur out with
  | zero => exact absurd hfuel (Nat.not_lt_zero _)
  | succ fuel ih =>
    cases h with
    | atEnd _ hend => exact (eventsFrom_atEnd fuel hend).symm
    | sensor _ kind lx hx ly hy lz hz out htag h1 h2 h3 h4 h5 h6 hrest =>
      have hlt := (List.getElem?_eq_some_iff.1 htag).1
      have hv := axesOf_drop.2 ⟨lx, hx, ly, hy, lz, hz, h1, h2, h3, h4, h5, h6, rfl⟩
      rw [eventsFrom_sensor fuel htag hv, readingOf_eq, ← ih hrest (by omega)]
      rfl
    | sensorCut _ kind htag hcut =>
      exact (eventsFrom_sensorCut fuel htag (axesOf_eq_none.2 (List.length_drop ▸ hcut))).symm
    | ack _ sid flag out htag hsid hflag hrest =>
      have hlt := (List.getElem?_eq_some_iff.1 htag).1
      have ha := (ackOf_drop (a := { sid := sid, flag := flag })).2 ⟨hsid, hflag⟩
      rw [eventsFrom_ack fuel htag ha, ← ih hrest (by omega)]
    | ackCut _ htag hcut =>
      exact (eventsFrom_ackCut fuel htag (ackOf_eq_none.2 (List.length_drop ▸ hcut))).symm
    | unknown _ t htag h1 h2 h3 h4 =>
      exact (eventsFrom_unknown fuel htag h1 (sensorKind_eq_none.2 ⟨h2, h3, h4⟩)).symm

/-! ### The statements -/

/-- Settles O38: the fetch reads the undefined tag alone, and a cursor at the end is the end of the payload. -/
theorem unknownTagAndEndSteps : Obligations.UnknownTagAndEndSteps := by
  intro s h
  refine ⟨fun t hlt htag h1 h2 h3 h4 => ?_, step_pass_atEnd h⟩
  have hk := sensorKind_eq_none.2 ⟨h2, h3, h4⟩
  calc step s
    _ = exec (.segUnknown t) s :=
        step_pass_segment h hlt (segmentBytes_unknown hlt htag h1 hk) (decodeSegment_unknown h1 hk [])
    _ = .next (s.raise .unknownSegmentType t s.dCur) := whenDecoding_decoding h.phase

/-- Settles O39: the rules derive the loop's events and nothing else, so two derivations give the same. -/
theorem decodeFollowsAlgorithm : Obligations.DecodeFollowsAlgorithm := by
  refine ⟨rfl, fun P hP => ?_, fun P cur a b ha hb => ?_⟩
  · rw [decodePayload_eq_eventsFrom hP]
    exact decodesFrom_eventsFrom (Nat.sub_lt (List.length_pos_iff.2 hP) Nat.one_pos)
  · have hfuel : P.length - cur < P.length - cur + 1 := Nat.lt_succ_self _
    exact (ha.eq_eventsFrom hfuel).trans (hb.eq_eventsFrom hfuel).symm

/-- Settles O45: a READING holds the raw counts, whose two's complement values are those of the source's formula. -/
theorem axisValuesAreExact : Obligations.AxisValuesAreExact := by
  refine ⟨fun kind v => ?_, fun v => ?_⟩
  · have hreading := readingOf_eq kind v
    simp only [axisCount_eq] at hreading
    exact ⟨hreading, by rw [hreading, EvEvent.values]⟩
  · obtain ⟨hlo, hhi⟩ := signed16_bounds v
    have hloQ : (-32768 : ℚ) ≤ signed16 v := by exact_mod_cast hlo
    have hhiQ : (signed16 v : ℚ) ≤ 32767 := by exact_mod_cast hhi
    rw [axisValue_milli]
    refine ⟨by ring, axisValue_raw v, ?_, ?_⟩ <;> linarith

end Sys2Proof.Machine
end

section
/-! PROOFS. The machine: what is fetched at the cursor, which action the block chooses, that no step stops in a state of
the invariant, and that every step keeps it. -/

namespace Sys2Proof.Machine

open Sys2Proof

/-! ### The fetch at the cursor (43 R175 to R181) -/

/-- The bytes that a tag's rule reads after its bound check. -/
def bytesAfterTag (t : Byte) : Nat := if t = 2 ∨ t = 3 ∨ t = 4 then 6 else if t = 1 then 2 else 0

@[simp] theorem bytesAfterTag_sensor (kind : ReadingKind) : bytesAfterTag kind.tag = 6 := by cases kind <;> rfl

@[simp] theorem bytesAfterTag_ack : bytesAfterTag 1 = 2 := rfl

theorem bytesAfterTag_unknown {t : Byte} (h1 : t ≠ 1) (hk : sensorKind t = none) : bytesAfterTag t = 0 := by
  obtain ⟨h2, h3, h4⟩ := sensorKind_eq_none.1 hk
  rw [bytesAfterTag, if_neg (by simp only [h2, h3, h4, or_self, not_false_eq_true]), if_neg h1]

section
variable {s : State} {t : Byte} (hlt : s.dCur < s.dLen) (htag : fbGet s.fb s.dCur = some t)
include hlt htag

/-- A segment that the end of the payload cuts short is fetched as its tag alone. -/
theorem segmentBytes_cut (hcut : s.dLen < s.dCur + 1 + bytesAfterTag t) : segmentBytes s = .ok [t] := by
  have hneed : s.dLen - (s.dCur + 1) < bytesAfterTag t := by omega
  unfold bytesAfterTag at hneed
  simp only [segmentBytes, memRead_tag hlt htag, List.cons.injEq, and_true, if_pos hneed]

/-- A segment inside the payload is fetched with all the bytes its rule reads. -/
theorem segmentBytes_full {bs : List Byte} (hfits : s.dCur + 1 + bytesAfterTag t ≤ s.dLen)
    (hbytes : readCells s.fb (s.dCur + 1) (bytesAfterTag t) = .ok bs) : segmentBytes s = .ok (t :: bs) := by
  have hneed : ¬ s.dLen - (s.dCur + 1) < bytesAfterTag t := by omega
  have hread := (memRead_of_le hfits).trans hbytes
  unfold bytesAfterTag at hneed hread
  simp only [segmentBytes, memRead_tag hlt htag, List.cons.injEq, and_true, if_neg hneed, hread, List.singleton_append]

end

theorem axesOf_take (bs : List Byte) : axesOf (bs.take 6) = axesOf bs := by
  match bs with
  | _ :: _ :: _ :: _ :: _ :: _ :: _ => rfl
  | [] | [_] | [_, _] | [_, _, _] | [_, _, _, _] | [_, _, _, _, _] => rfl

theorem ackOf_take (bs : List Byte) : ackOf (bs.take 2) = ackOf bs := by
  match bs with
  | _ :: _ :: _ => rfl
  | [] | [_] => rfl

/-- The instruction of a sensor tag (43 R175). -/
def sensorInstr (kind : ReadingKind) (axes : Option Triple) : Instr :=
  match kind with
  | .acc => .segAcc axes
  | .mag => .segMag axes
  | .gyro => .segGyro axes

theorem decodeSegment_sensor (kind : ReadingKind) (rest : List Byte) :
    decodeSegment (kind.tag :: rest) = .ok (sensorInstr kind (axesOf rest)) := by cases kind <;> rfl

theorem decodeSegment_ack (rest : List Byte) : decodeSegment (1 :: rest) = .ok (.segEnableAck (ackOf rest)) := rfl

/-- A segment depends on no byte behind those that its rule reads. -/
theorem decodeSegment_take (t : Byte) (rest : List Byte) :
    decodeSegment (t :: rest.take (bytesAfterTag t)) = decodeSegment (t :: rest) := by
  cases hk : sensorKind t with
  | some kind =>
    obtain rfl := sensorKind_eq_some.1 hk
    rw [bytesAfterTag_sensor, decodeSegment_sensor, axesOf_take, ← decodeSegment_sensor]
  | none =>
    by_cases h1 : t = 1
    · rw [h1, bytesAfterTag_ack, decodeSegment_ack, ackOf_take, ← decodeSegment_ack]
    · rw [decodeSegment_unknown h1 hk, decodeSegment_unknown h1 hk]

/-- A tag with fewer bytes behind it than its rule reads is the segment that is cut short. -/
theorem decodeSegment_cut {t : Byte} {rest : List Byte} (h : rest.length < bytesAfterTag t) :
    decodeSegment [t] = decodeSegment (t :: rest) := by
  cases hk : sensorKind t with
  | some kind =>
    obtain rfl := sensorKind_eq_some.1 hk
    have hcut := axesOf_eq_none.2 (bytesAfterTag_sensor kind ▸ h)
    rw [decodeSegment_sensor, decodeSegment_sensor, hcut]
    rfl
  | none =>
    by_cases h1 : t = 1
    · subst h1
      have hcut := ackOf_eq_none.2 (bytesAfterTag_ack ▸ h)
      rw [decodeSegment_ack, decodeSegment_ack, hcut]
      rfl
    · rw [decodeSegment_unknown h1 hk, decodeSegment_unknown h1 hk]

/-- The fetch answers, and decodes as all the rest of the payload does. -/
theorem segmentBytes_of_payload {s : State} {P : List Byte} (hP : readCells s.fb 0 s.dLen = .ok P)
    (hlt : s.dCur < s.dLen) :
    ∃ bs, segmentBytes s = .ok bs ∧ decodeSegment bs = decodeSegment (P.drop s.dCur) := by
  have hlen : P.length = s.dLen := readCells_length hP
  have hget : P[s.dCur]? = some P[s.dCur] := List.getElem?_eq_getElem (hlen ▸ hlt)
  have htag : fbGet s.fb s.dCur = some P[s.dCur] := by
    have hcell := readCells_get hP hlt
    rwa [Nat.zero_add, hget] at hcell
  rw [drop_of_getElem? hget]
  by_cases hfits : s.dCur + 1 + bytesAfterTag P[s.dCur] ≤ s.dLen
  · have hbytes := readCells_sub hP hfits
    rw [Nat.zero_add] at hbytes
    exact ⟨_, segmentBytes_full hlt htag hfits hbytes, decodeSegment_take _ _⟩
  · have hcut : (P.drop (s.dCur + 1)).length < bytesAfterTag P[s.dCur] := by
      rw [List.length_drop]
      omega
    exact ⟨_, segmentBytes_cut hlt htag (by omega), decodeSegment_cut hcut⟩

/-- Whatever stands at the cursor is a segment (43 R175, R182). -/
theorem decodeSegment_total (t : Byte) (rest : List Byte) : ∃ i, decodeSegment (t :: rest) = .ok i := by
  cases hk : sensorKind t with
  | some kind =>
    obtain rfl := sensorKind_eq_some.1 hk
    exact ⟨_, decodeSegment_sensor kind rest⟩
  | none =>
    by_cases h1 : t = 1
    · exact h1 ▸ ⟨_, decodeSegment_ack rest⟩
    · exact ⟨_, decodeSegment_unknown h1 hk rest⟩

/-! ### The action of a step -/

theorem rxAction_cases (es : List PortEvent) :
    rxAction es = .wait ∨ ∃ b last rest, rxAction es = .receive b last rest := by
  unfold rxAction
  split
  · exact .inr ⟨_, _, _, rfl⟩
  · exact .inl rfl

/-- What a CK event stands for is an operation of the checksum port. -/
theorem needsIdle_decodeCk (op : BitVec 2) (m : Bool) (b : Byte) : needsIdle (decodeCk op m b) = true := by
  rcases op_cases op with rfl | rfl | rfl | rfl <;> rfl

/-- What a run of events begins with is an operation of IDLE or a raw frame of at least one byte (30 R91). -/
theorem decodeOperation_port {es rest : List PortEvent} {i : Instr} (h : decodeOperation es = .ok (i, rest)) :
    needsIdle i = true ∨ ∃ b bs, i = .validate (b :: bs) := by
  unfold decodeOperation at h
  split at h
  next => cases h
  next op m b es =>
    refine .inl ?_
    split at h
    next =>
      split at h <;> cases h
      · split <;> rfl
      · rfl
    next =>
      cases h
      exact needsIdle_decodeCk op m b
  next op sid arg es =>
    cases h
    rcases op_cases op with rfl | rfl | rfl | rfl <;> exact .inl rfl
  next =>
    split at h
    next raw rest' hframe =>
      cases h
      cases raw with
      | nil => exact absurd hframe takeFrame_ne_nil
      | cons b bs => exact .inr ⟨b, bs, rfl⟩
    next => cases h

/-- IDLE waits, receives a byte, accepts a command, or runs an operation of its ports. -/
theorem idleAction_cases (s : State) :
    idleAction s = .wait ∨ (∃ b last rest, idleAction s = .receive b last rest) ∨
      (∃ op sid arg rest, idleAction s = .accept op sid arg rest) ∨
      ∃ i rest, idleAction s = .run i rest ∧ (needsIdle i = true ∨ ∃ b bs, i = .validate (b :: bs)) := by
  unfold idleAction
  split
  next =>
    split
    next => exact .inl rfl
    next => exact .inr (.inr (.inr ⟨_, _, rfl, .inl (needsIdle_decodeCk ..)⟩))
    next => exact .inr (.inr (.inl ⟨_, _, _, _, rfl⟩))
    next => exact .inr (.inl ⟨_, _, _, rfl⟩)
  next =>
    split
    next hop => exact .inr (.inr (.inr ⟨_, _, rfl, decodeOperation_port hop⟩))
    next => exact (rxAction_cases _).imp_right .inl

/-- DECODING ends the payload, runs the segment at the cursor or the whole payload, or stops at a read that fails. -/
theorem decodeAction_cases (s : State) :
    decodeAction s = .finish ∨
      (∃ bs i, segmentBytes s = .ok bs ∧ decodeSegment bs = .ok i ∧ decodeAction s = .run i s.offered) ∨
      (∃ P, memRead s 0 s.dLen = .ok P ∧ decodeAction s = .run (.decode P) s.offered) ∨
      (∃ f, decodeAction s = .stop f ∧
        (memRead s 0 s.dLen = .error f ∨ (s.dCur < s.dLen ∧ segmentBytes s = .error f))) := by
  unfold decodeAction
  split
  next =>
    split
    next f hread => exact .inr (.inr (.inr ⟨f, rfl, .inl hread⟩))
    next P hread => exact .inr (.inr (.inl ⟨P, hread, rfl⟩))
  next =>
    unfold passAction
    split
    next => exact .inl rfl
    next hlt =>
      split
      next f hfetch => exact .inr (.inr (.inr ⟨f, rfl, .inr ⟨Nat.not_le.1 hlt, hfetch⟩⟩))
      next bs hfetch =>
        split
        next i hseg => exact .inr (.inl ⟨bs, i, hfetch, hseg, rfl⟩)
        next => exact .inl rfl

/-- Every action a step can take, with the phase where that matters. -/
theorem nextAction_cases (s : State) :
    nextAction s = .hold ∨ nextAction s = .wait ∨ (∃ b last rest, nextAction s = .receive b last rest) ∨
      (∃ op sid arg rest, nextAction s = .accept op sid arg rest) ∨
      (∃ i rest, nextAction s = .run i rest ∧ (needsIdle i = true ∨ ∃ b bs, i = .validate (b :: bs))) ∨
      (s.phase = .framing ∧ nextAction s = .frame) ∨ (s.phase = .decoding ∧ nextAction s = decodeAction s) := by
  cases hr : s.rst with
  | true => exact .inl (nextAction_rst hr)
  | false =>
    cases hp : s.phase with
    | idle =>
      rw [nextAction_idle hr hp]
      rcases idleAction_cases s with h | h | h | h
      · exact .inr (.inl h)
      · exact .inr (.inr (.inl h))
      · exact .inr (.inr (.inr (.inl h)))
      · exact .inr (.inr (.inr (.inr (.inl h))))
    | framing => exact .inr (.inr (.inr (.inr (.inr (.inl ⟨rfl, nextAction_framing hr hp⟩)))))
    | receiving =>
      rw [nextAction_receiving hr hp]
      rcases rxAction_cases s.offered with h | h
      · exact .inr (.inl h)
      · exact .inr (.inr (.inl h))
    | decoding => exact .inr (.inr (.inr (.inr (.inr (.inr ⟨rfl, nextAction_decoding hr hp⟩)))))

/-! ### No step stops -/

theorem whenIdle_total (s t : State) : ∃ u, whenIdle s t = .next u := by
  unfold whenIdle
  split <;> exact ⟨_, rfl⟩

theorem whenDecoding_total (s t : State) : ∃ u, whenDecoding s t = .next u := by
  unfold whenDecoding
  split <;> exact ⟨_, rfl⟩

theorem execValidate_of_ne_nil {raw : List Byte} (h : raw ≠ []) (s : State) :
    exec (.validate raw) s = .next (s.rxRun raw) := by
  obtain ⟨_, _, rfl⟩ := List.exists_cons_of_ne_nil h
  rfl

/-- Only VALIDATE of no byte is refused (42 R153 b), and no instruction faults. -/
theorem exec_total {i : Instr} (h : i ≠ .validate []) (s : State) : ∃ t, exec i s = .next t := by
  cases i with
  | validate raw => exact ⟨_, execValidate_of_ne_nil (fun hraw => h (hraw ▸ rfl)) s⟩
  | ckStart | ckAbsorb | ckRead | ckReserved | cksumOut | cksumIn | disable | enable | setAccelRange
  | setSamplingRate => exact whenIdle_total _ _
  | decode | segEnableAck | segAcc | segMag | segGyro | segUnknown => exact whenDecoding_total _ _

theorem ne_validate_nil_of_port {i : Instr} (h : needsIdle i = true ∨ ∃ b bs, i = .validate (b :: bs)) :
    i ≠ .validate [] := by
  rintro rfl
  rcases h with h | ⟨_, _, h⟩ <;> cases h

theorem decodeSegment_ne_validate {bs : List Byte} {i : Instr} (h : decodeSegment bs = .ok i) (raw : List Byte) :
    i ≠ .validate raw := by
  unfold decodeSegment at h
  split at h
  · cases h
  · rintro rfl
    split_ifs at h <;> cases h

/-- 41 R135, R136: in a state of the invariant the framer has a rule. -/
theorem framerStep_total {s : State} (h : FramingInv s) : ∃ t, framerStep s = .next t := by
  by_cases hend : s.fIdx = s.fLen
  · exact ⟨_, framerStep_at_end hend⟩
  · have hlt : s.fIdx < s.fLen := Nat.lt_of_le_of_ne h.index (mt BitVec.eq_of_toNat_eq hend)
    have hin : s.fIdx.toNat < (latchedBody s.fOp s.fSid s.fVal).length := by
      rw [latchedBody_length, ← h.length]
      exact hlt
    have hbyte := bodyByte_eq s.fOp s.fSid s.fVal s.fIdx (h.length ▸ hlt)
    exact ⟨_, framerStep_before_end hlt (hbyte.trans (List.getElem?_eq_getElem hin))⟩

/-- In a state of the invariant the payload stands in the frame buffer. -/
theorem DecodingInv.payload {s : State} (h : DecodingInv s) : ∃ P, readCells s.fb 0 s.dLen = .ok P := by
  obtain ⟨bs, hbs, -⟩ := h.cells
  have hlen := h.length
  exact ⟨_, readCells_sub hbs (i := 0) (by omega)⟩

/-- 43 R189: in a state of the invariant no read of the decoder fails. -/
theorem decodeAction_ne_stop {s : State} (h : DecodingInv s) (f : Fault) : decodeAction s ≠ .stop f := by
  obtain ⟨P, hP⟩ := h.payload
  intro hstop
  rcases decodeAction_cases s with h | ⟨bs, i, -, -, h⟩ | ⟨Q, -, h⟩ | ⟨g, -, hread | ⟨hlt, hfetch⟩⟩
  · rw [h] at hstop
    cases hstop
  · rw [h] at hstop
    cases hstop
  · rw [h] at hstop
    cases hstop
  · rw [memRead_of_le (Nat.le_of_eq (Nat.zero_add _)), hP] at hread
    cases hread
  · obtain ⟨bs, hbs, -⟩ := segmentBytes_of_payload hP hlt
    rw [hbs] at hfetch
    cases hfetch

/-- Settles O53: each action goes on; the framer's rule and the decoder's reads are where the invariant is needed. -/
theorem stepNeverStops : Obligations.StepNeverStops := by
  intro s hinv
  rw [step]
  rcases nextAction_cases s with
    h | h | ⟨b, last, rest, h⟩ | ⟨op, sid, arg, rest, h⟩ | ⟨i, rest, h, hi⟩ | ⟨hp, h⟩ | ⟨hp, h⟩ <;>
    rw [h]
  · exact ⟨_, rfl⟩
  · exact ⟨_, rfl⟩
  · exact ⟨_, rfl⟩
  · exact ⟨_, rfl⟩
  · exact exec_total (ne_validate_nil_of_port hi) _
  · exact framerStep_total (hinv.framing hp)
  · rcases decodeAction_cases s with h | ⟨bs, i, -, hi, h⟩ | ⟨P, -, h⟩ | ⟨f, h, -⟩
    · exact h ▸ ⟨_, rfl⟩
    · exact h ▸ exec_total (decodeSegment_ne_validate hi []) _
    · exact h ▸ exec_total (i := .decode P) (fun h => by cases h) _
    · exact absurd h (decodeAction_ne_stop (hinv.decoding hp) f)

/-! ### Every step keeps the invariant -/

/-- An operation of the ports reads nothing at the cursor, so nothing of its fetch has to be known. -/
theorem exec_inv_of_port {i : Instr} {s t : State} (hinv : s.Inv) (he : exec i s = .next t)
    (hi : needsIdle i = true ∨ ∃ b bs, i = .validate (b :: bs)) : t.Inv := by
  refine exec_inv_of_fetched hinv he ?_ ?_ ?_
  · rintro v (rfl | rfl | rfl) <;> rcases hi with h | ⟨_, _, h⟩ <;> cases h
  · rintro a rfl
    rcases hi with h | ⟨_, _, h⟩ <;> cases h
  · rintro P rfl
    rcases hi with h | ⟨_, _, h⟩ <;> cases h

/-- 43 R188, R189: what DECODING does keeps the invariant. -/
theorem decodeAction_inv {s t : State} (hinv : s.Inv) (he : perform s (decodeAction s) = .next t) : t.Inv := by
  rcases decodeAction_cases s with h | ⟨bs, i, hfetch, hi, h⟩ | ⟨P, hread, h⟩ | ⟨f, h, -⟩ <;> rw [h] at he
  · cases he
    exact hinv.raise _ _ _
  · obtain ⟨hseg, hack, hdec⟩ := fetched_segment_fits hfetch hi
    exact exec_inv_of_fetched hinv he hseg hack hdec
  · have hlen : P.length = s.dLen := readCells_length (memRead_ok hread).2
    refine exec_inv_of_fetched (i := .decode P) hinv he ?_ ?_ ?_
    · rintro v (hv | hv | hv) <;> cases hv
    · rintro a ha
      cases ha
    · rintro Q hQ
      cases hQ
      exact hlen
  · cases he

/-- Settles O52: each action of `nextAction_cases` is one that `Laws/Invariant` shows to keep the invariant. -/
theorem stepKeepsInvariant : Obligations.StepKeepsInvariant := by
  intro s t hinv he
  rw [step] at he
  rcases nextAction_cases s with
    h | h | ⟨b, last, rest, h⟩ | ⟨op, sid, arg, rest, h⟩ | ⟨i, rest, h, hi⟩ | ⟨hp, h⟩ | ⟨hp, h⟩ <;>
    rw [h] at he
  · cases he
    exact hinv.holdReset
  · cases he
    exact hinv
  · cases he
    exact (hinv.offered rest).rxEvent b last
  · cases he
    exact (hinv.offered rest).acceptCommand op sid arg
  · exact exec_inv_of_port (hinv.offered rest) he hi
  · exact framerStep_inv hinv hp he
  · exact decodeAction_inv hinv he

/-- Settles O51: the registers are zero, FB is empty and the phase is IDLE, which has no part of its own. -/
theorem resetMeetsInvariant : Obligations.ResetMeetsInvariant where
  capacity := by decide
  canonical := Memory.wf_reset
  inside := fun _ hc => by cases hc
  vLen_le := Nat.zero_le _
  dLen_lt := by decide
  dCur_le := Nat.le_refl _
  range := fun h => absurd h (by decide)
  rate := fun h => absurd h (by decide)
  framing := fun h => by cases h
  receiving := fun h => by cases h
  decoding := fun h => by cases h

end Sys2Proof.Machine
end

section
/-! PROOFS. Encodings (spec/30_encoding.md): the round trip of every instruction, and the command frames read back. -/

namespace Sys2Proof.Machine

open Sys2Proof

/-- Settles O55: the round trip of each constructor. -/
theorem decodeEncodeAgree : Obligations.DecodeEncodeAgree := by
  intro i hwf
  cases i with
  | ckStart m b => exact Laws.RoundTrip.ckStart m b hwf
  | ckAbsorb m b => exact Laws.RoundTrip.ckAbsorb m b hwf
  | ckRead m b => exact Laws.RoundTrip.ckRead m b hwf
  | ckReserved m b => exact Laws.RoundTrip.ckReserved m b hwf
  | cksumOut bytes => exact Laws.RoundTrip.cksumOut bytes hwf
  | cksumIn bytes => exact Laws.RoundTrip.cksumIn bytes hwf
  | disable sid arg => exact Laws.RoundTrip.disable sid arg hwf
  | enable sid arg => exact Laws.RoundTrip.enable sid arg hwf
  | setAccelRange sid arg => exact Laws.RoundTrip.setAccelRange sid arg hwf
  | setSamplingRate sid arg => exact Laws.RoundTrip.setSamplingRate sid arg hwf
  | validate raw => exact Laws.RoundTrip.validate raw hwf
  | decode P => exact Laws.RoundTrip.decode P hwf
  | segEnableAck a => exact Laws.RoundTrip.segEnableAck a hwf
  | segAcc v => exact Laws.RoundTrip.segAcc v hwf
  | segMag v => exact Laws.RoundTrip.segMag v hwf
  | segGyro v => exact Laws.RoundTrip.segGyro v hwf
  | segUnknown t => exact Laws.RoundTrip.segUnknown t hwf

/-! ### Command frames read back (30 R71 to R73) -/

/-- The four bytes of a rate are its 32 bits. -/
theorem word32_leU32 (v : BitVec 32) :
    word32 (v.extractLsb' 0 8) (v.extractLsb' 8 8) (v.extractLsb' 16 8) (v.extractLsb' 24 8) = v := by
  rw [word32, BitVec.extractLsb'_append_extractLsb'_eq_extractLsb' (rfl : 24 = 16 + 8),
    BitVec.extractLsb'_append_extractLsb'_eq_extractLsb' (rfl : 16 = 8 + 8),
    BitVec.extractLsb'_append_extractLsb'_eq_extractLsb' (rfl : 8 = 0 + 8)]
  exact BitVec.extractLsb'_eq_self

/-- One byte holds a coerced range (30 R80). -/
theorem setWidth_low_rangeValue (arg : Arg) : ((rangeValue arg).extractLsb' 0 8).setWidth 32 = rangeValue arg := by
  rcases legalRange_rangeValue arg with h | h | h | h | h <;> rw [h] <;> rfl

/-- Settles O56: the tests of each shape hold by computation, and the bytes of the argument are read back whole. -/
theorem builtFramesMatchTableRows : Obligations.BuiltFramesMatchTableRows := by
  intro sid arg
  refine ⟨rfl, rfl, ?_, ?_⟩
  · exact congrArg (fun v => Except.ok (Instr.setAccelRange 0x80 v)) (setWidth_low_rangeValue arg)
  · exact congrArg (fun v => Except.ok (Instr.setSamplingRate sid v)) (word32_leU32 (rateValue arg))

/-- Settles O57: each word is decoded by computation. -/
theorem tableWordsDecode : Obligations.TableWordsDecode :=
  ⟨by decide, by decide, by decide, by decide, by decide, by decide, by decide⟩

end Sys2Proof.Machine
end

section
/-! PROOFS. Acceptance (20 R60): an operation outside its phase does nothing, a step runs what the decoder reads, and
the block waits when nothing is offered, after reset too (70 R261). -/

namespace Sys2Proof.Machine

open Sys2Proof

/-! ### Operations outside their phase -/

theorem exec_busy {i : Instr} {s : State} (hi : needsIdle i = true) (h : s.phase ≠ .idle) : exec i s = .next s := by
  cases i with
  | ckStart | ckAbsorb | ckRead | ckReserved | cksumOut | cksumIn | disable | enable | setAccelRange
  | setSamplingRate => exact whenIdle_busy h
  | validate | decode | segEnableAck | segAcc | segMag | segGyro | segUnknown => cases hi

theorem exec_notDecoding {i : Instr} {s : State} (hi : needsDecoding i = true) (h : s.phase ≠ .decoding) :
    exec i s = .next s := by
  cases i with
  | decode | segEnableAck | segAcc | segMag | segGyro | segUnknown => exact whenDecoding_other h
  | ckStart | ckAbsorb | ckRead | ckReserved | cksumOut | cksumIn | disable | enable | setAccelRange | setSamplingRate
  | validate => cases hi

theorem rxEvent_refused {s : State} (h : s.phase = .framing ∨ s.phase = .decoding) (b : Byte) (last : Bool) :
    s.rxEvent b last = s := by
  rcases h with h | h <;> simp only [State.rxEvent, h]

theorem rxRun_refused {s : State} (h : s.phase = .framing ∨ s.phase = .decoding) (raw : List Byte) :
    s.rxRun raw = s := by
  induction raw with
  | nil => rfl
  | cons b bs ih =>
    cases bs with
    | nil => exact rxEvent_refused h b true
    | cons c cs => rw [State.rxRun, rxEvent_refused h, ih]

/-- Settles O12: acceptance is the first test of every operation, and of every RX event of a frame. -/
theorem operationsOutsideTheirPhaseDoNothing : Obligations.OperationsOutsideTheirPhaseDoNothing := by
  intro i s
  refine ⟨exec_busy, exec_notDecoding, ?_⟩
  rintro raw rfl hraw hphase
  rw [execValidate_of_ne_nil hraw, rxRun_refused hphase]

/-! ### A step runs the decoded instruction -/

/-- A machine with whole operations runs the one that its offered events begin with. -/
theorem step_operation {s : State} {i : Instr} {rest : List PortEvent} (hr : s.rst = false) (hp : s.phase = .idle)
    (hg : s.cfg.grain = .operation) (hop : decodeOperation s.offered = .ok (i, rest)) :
    step s = exec i { s with offered := rest } :=
  step_of_action (a := .run i rest) (by
    rw [nextAction_idle hr hp]
    simp only [idleAction, hg, hop])

/-- A machine with whole operations decodes a payload from its start at once. -/
theorem step_payload {s : State} {P : List Byte} (hr : s.rst = false) (hp : s.phase = .decoding)
    (hg : s.cfg.grain = .operation) (hcur : s.dCur = min 1 s.dLen) (hread : memRead s 0 s.dLen = .ok P) :
    step s = exec (.decode P) s :=
  step_of_action (a := .run (.decode P) s.offered) (by
    rw [nextAction_decoding hr hp, decodeAction, if_pos ⟨hg, hcur⟩, hread])

/-- Settles O54: each clause is the branch of `nextAction` that its hypotheses select. -/
theorem stepRunsDecodedInstruction : Obligations.StepRunsDecodedInstruction := by
  intro s i hr
  refine ⟨?_, fun rest hp hg hop => step_operation hr hp hg hop, ?_,
    fun P hp hg hcur hread => step_payload hr hp hg hcur hread⟩
  · rintro op m b rest hp hg ho rfl
    exact step_ck ⟨hr, hp, hg⟩ ho
  · intro bs hp hg hfetch hi
    obtain ⟨_, _, -, hlt, -⟩ := segmentBytes_ok hfetch
    exact step_pass_segment ⟨hr, hp, hg⟩ hlt hfetch hi

/-! ### Waiting, and the reset input -/

/-- In IDLE with nothing offered the block waits, whatever its grain (log 5). -/
theorem step_idle_wait {s : State} (hr : s.rst = false) (hp : s.phase = .idle) (ho : s.offered = []) :
    step s = .next s :=
  step_of_action (a := .wait) (by
    rw [nextAction_idle hr hp, idleAction, ho]
    cases s.cfg.grain <;> rfl)

/-- Settles O50: the step under `rst` is `holdReset`, and the state it leaves waits in IDLE. -/
theorem resetInputHoldsRegisters : Obligations.ResetInputHoldsRegisters := by
  intro s hrst
  have hkept : Emits s s.holdReset [] := (List.append_nil _).symm
  exact ⟨_, step_rst hrst, rfl, rfl, rfl, rfl, rfl, rfl, rfl, rfl, rfl, rfl, rfl, rfl, rfl, ⟨rfl, rfl, rfl⟩, hkept,
    step_idle_wait rfl rfl rfl⟩

end Sys2Proof.Machine
end

section
/-! PROOFS. checksum_gen: the laws of the fold (40 R101, R102, R111, R112), the session of CK events (40 R107) and the
frame of the checksum operations. -/

namespace Sys2Proof.Machine

open Sys2Proof

/-! ### The fold -/

theorem xorFold_perm {s t : List Byte} (h : s.Perm t) : xorFold s = xorFold t := by
  induction h with
  | nil => rfl
  | cons b _ ih => rw [xorFold_cons, xorFold_cons, ih]
  | swap b c s =>
    simp only [xorFold_cons]
    ac_rfl
  | trans _ _ ih ih' => exact ih.trans ih'

/-- Settles O9: the concatenation and the order by induction; the cancellation is that of the inbound checksum. -/
theorem xorFoldLaws : Obligations.XorFoldLaws :=
  ⟨xorFold_append, fun _ _ => xorFold_perm, inboundChecksum_append_self⟩

/-- The constant 254 has ones in bits 7 to 1. -/
theorem outboundConstant_bit {i : Nat} (h1 : 1 ≤ i) (h8 : i < 8) : outboundConstant.getLsbD i = true := by
  interval_cases i <;> rfl

theorem outboundChecksum_bit (bytes : List Byte) (i : Nat) :
    (outboundChecksum bytes).getLsbD i = ((inboundChecksum bytes).getLsbD i ^^ outboundConstant.getLsbD i) :=
  BitVec.getLsbD_xor

/-- Settles O10: the constant's bits decide which bits differ, and its marker is what the constant cancels. -/
theorem checksumsDifferInSevenBits : Obligations.ChecksumsDifferInSevenBits := by
  refine ⟨fun s => ⟨rfl, outboundChecksum_ne_inboundChecksum s, ?_, fun i h1 h8 => ?_⟩, fun T => ⟨?_, ?_⟩⟩
  · rw [outboundChecksum_bit, show outboundConstant.getLsbD 0 = false from rfl, Bool.xor_false]
  · rw [outboundChecksum_bit, outboundConstant_bit h1 h8, Bool.xor_true]
    exact Bool.not_ne_self _
  · have hsum : inboundChecksum T = outboundChecksum (startMarker :: T) := (outboundChecksum_startMarker T).symm
    exact (validateFrame_concat T _).trans (congrArg some (if_pos hsum))
  · have hsum := (outboundChecksum_ne_inboundChecksum (startMarker :: T)).symm
    exact (validateFrame_concat (startMarker :: T) _).trans (congrArg some (if_neg hsum))

/-- Settles O11: both checksums are the fold up to a constant, and the fold has these properties. -/
theorem checksumErrorCoverage : Obligations.ChecksumErrorCoverage := by
  intro f hf
  obtain ⟨k, hk⟩ : ∃ k, ∀ s, f s = xorFold s ^^^ k := by
    rcases hf with rfl | rfl
    · exact ⟨0, fun s => (BitVec.xor_zero).symm⟩
    · exact ⟨outboundConstant, fun s => rfl⟩
  refine ⟨fun u v b c hne heq => hne ?_, fun u v w b c e => ?_, fun u v h => ?_⟩
  · simpa only [hk, xorFold_append, xorFold_cons, BitVec.xor_left_inj, BitVec.xor_right_inj] using heq
  · have hcancel : b ^^^ e ^^^ (xorFold v ^^^ (c ^^^ e ^^^ xorFold w)) = b ^^^ (xorFold v ^^^ (c ^^^ xorFold w)) := by
      calc b ^^^ e ^^^ (xorFold v ^^^ (c ^^^ e ^^^ xorFold w))
        _ = e ^^^ e ^^^ (b ^^^ (xorFold v ^^^ (c ^^^ xorFold w))) := by ac_rfl
        _ = b ^^^ (xorFold v ^^^ (c ^^^ xorFold w)) := by rw [BitVec.xor_self, BitVec.zero_xor]
    simp only [hk, xorFold_append, xorFold_cons, hcancel]
  · rw [hk, hk, xorFold_perm h]

/-! ### The session of CK events -/

/-- Settles O7: the events are the whole sequence, and its read gives `ckResult m` of the fold. -/
theorem ckSessionReadsFold : Obligations.CkSessionReadsFold := by
  intro m b0 absorbs mr br rest s h ho
  refine ⟨_, steps_checksumSequence h ho, rfl, rfl, h.phase, rfl, ?_⟩
  cases m with
  | false => simp [Emits]
  | true => rfl

/-! ### The frame of the checksum operations -/

/-- All that a checksum operation can do, and which part of it each one leaves alone (40 R103 to R106, R109, R110). -/
theorem exec_checksumOperation_next {i : Instr} {s t : State}
    (hi : (∃ m b, i = .ckStart m b ∨ i = .ckAbsorb m b ∨ i = .ckRead m b ∨ i = .ckReserved m b) ∨
      (∃ bytes, i = .cksumOut bytes ∨ i = .cksumIn bytes))
    (he : exec i s = .next t) :
    ∃ mode acc es, t = { s with mode := mode, acc := acc, emitted := s.emitted ++ es } ∧
      ((∃ m b, i = .ckAbsorb m b ∨ i = .ckRead m b ∨ i = .ckReserved m b) → mode = s.mode) ∧
      ((∃ m b, i = .ckRead m b ∨ i = .ckReserved m b) → acc = s.acc) ∧
      ((∃ m b, i = .ckStart m b ∨ i = .ckAbsorb m b ∨ i = .ckReserved m b) → es = []) := by
  have hkept : s = { s with emitted := s.emitted ++ [] } := by rw [List.append_nil]
  by_cases h : s.phase = .idle
  · rcases hi with ⟨m, b, rfl | rfl | rfl | rfl⟩ | ⟨bytes, rfl | rfl⟩
    · cases (exec_ckStart_idle h m b).symm.trans he
      exact ⟨m, 0, [], congrArg (State.startChecksum · m) hkept, by simp, by simp, fun _ => rfl⟩
    · cases (exec_ckAbsorb_idle h m b).symm.trans he
      exact ⟨s.mode, s.acc ^^^ b, [], congrArg (State.absorb · b) hkept, fun _ => rfl, by simp, fun _ => rfl⟩
    · cases (exec_ckRead_idle h m b).symm.trans he
      exact ⟨s.mode, s.acc, _, rfl, fun _ => rfl, fun _ => rfl, by simp⟩
    · cases (exec_ckReserved_idle h m b).symm.trans he
      exact ⟨s.mode, s.acc, [], hkept, fun _ => rfl, fun _ => rfl, fun _ => rfl⟩
    · cases (exec_cksumOut_idle h bytes).symm.trans he
      exact ⟨true, xorFold bytes, _, rfl, by simp, by simp, by simp⟩
    · cases (exec_cksumIn_idle h bytes).symm.trans he
      exact ⟨false, xorFold bytes, _, rfl, by simp, by simp, by simp⟩
  · have hneeds : needsIdle i = true := by
      rcases hi with ⟨m, b, rfl | rfl | rfl | rfl⟩ | ⟨bytes, rfl | rfl⟩ <;> rfl
    cases (exec_busy hneeds h).symm.trans he
    exact ⟨s.mode, s.acc, [], hkept, fun _ => rfl, fun _ => rfl, fun _ => rfl⟩

/-- Settles O46: `exec_checksumOperation_next` names all that changes. -/
theorem checksumOperationsFrame : Obligations.ChecksumOperationsFrame := by
  intro i s t hi he
  obtain ⟨mode, acc, es, rfl, hmode, hacc, hes⟩ := exec_checksumOperation_next hi he
  refine ⟨rfl, ⟨rfl, rfl, rfl, rfl, rfl, rfl⟩, ⟨rfl, rfl⟩, ⟨rfl, rfl⟩, ⟨rfl, rfl, rfl⟩, fun _ => rfl, ⟨es, rfl⟩, hmode,
    hacc, fun h => ?_⟩
  rw [hes h]
  rfl

end Sys2Proof.Machine
end

section
/-! PROOFS. command_framer: a command's output and its frame, and the byte-serial framer as a refinement of the whole
command (41 R137). -/

namespace Sys2Proof.Machine

open Sys2Proof

/-! ### Output and frame of a whole command -/

/-- The TX events and the CST of a command (41 R124 to R128). -/
def commandOutput (op : BitVec 2) (sid : Byte) (arg : Arg) : List OutEvent :=
  frameEvents (latchedBody op sid (latchedValue op arg)) ++ [.cst (latchedCoerced op arg)]

/-- Settles O19: `exec_cmd_idle` emits a list that names the command's fields only. -/
theorem commandOutputIsPure : Obligations.CommandOutputIsPure :=
  fun op sid arg => ⟨commandOutput op sid arg, fun _ h => ⟨_, exec_cmd_idle h op sid arg, rfl⟩⟩

theorem command_eq_decodeCmd {i : Instr}
    (hi : ∃ sid arg, i = .disable sid arg ∨ i = .enable sid arg ∨ i = .setAccelRange sid arg ∨
      i = .setSamplingRate sid arg) : ∃ op sid arg, i = decodeCmd op sid arg := by
  obtain ⟨sid, arg, rfl | rfl | rfl | rfl⟩ := hi
  exacts [⟨0, sid, arg, rfl⟩, ⟨1, sid, arg, rfl⟩, ⟨2, sid, arg, rfl⟩, ⟨3, sid, arg, rfl⟩]

theorem needsIdle_decodeCmd (op : BitVec 2) (sid : Byte) (arg : Arg) : needsIdle (decodeCmd op sid arg) = true := by
  rcases op_cases op with rfl | rfl | rfl | rfl <;> rfl

/-- Settles O47: in IDLE a command is `sendCommand`, elsewhere it does nothing. -/
theorem commandsFrame : Obligations.CommandsFrame := by
  intro i s t hi he
  obtain ⟨op, sid, arg, rfl⟩ := command_eq_decodeCmd hi
  by_cases h : s.phase = .idle
  · cases (exec_cmd_idle h op sid arg).symm.trans he
    exact ⟨h.symm, ⟨rfl, rfl⟩, ⟨rfl, rfl⟩, ⟨rfl, rfl, rfl⟩, fun _ => rfl, _, rfl⟩
  · cases (exec_busy (needsIdle_decodeCmd op sid arg) h).symm.trans he
    exact ⟨rfl, ⟨rfl, rfl⟩, ⟨rfl, rfl⟩, ⟨rfl, rfl, rfl⟩, fun _ => rfl, [], (List.append_nil _).symm⟩

/-! ### The byte-serial framer -/

/-- The state after the rest of the body, from F_IDX on, has been sent (41 R135). -/
def State.sendRest (s : State) : State :=
  let rest := (latchedBody s.fOp s.fSid s.fVal).drop s.fIdx.toNat
  { s with
    emitted := s.emitted ++ rest.map (OutEvent.tx · false), acc := s.acc ^^^ xorFold rest, fIdx := s.fLen }

theorem State.sendRest_at_end {s : State} (hlen : s.fLen = bodyLength s.fOp) (hend : s.fIdx = s.fLen) :
    s.sendRest = s := by
  have hdone : (latchedBody s.fOp s.fSid s.fVal).drop s.fIdx.toNat = [] :=
    List.drop_eq_nil_of_le (by rw [latchedBody_length, hend, hlen])
  have hacc : s.acc ^^^ xorFold [] = s.acc := BitVec.xor_zero
  simp only [State.sendRest, hdone, List.map_nil, List.append_nil, hacc]
  exact congrArg (fun idx => { s with fIdx := idx }) hend.symm

/-- A byte of the body sent, the rest is one byte shorter. -/
theorem State.sendRest_sendBodyByte {s : State} {b : Byte} (hidx : (s.fIdx + 1).toNat = s.fIdx.toNat + 1)
    (hb : (latchedBody s.fOp s.fSid s.fVal)[s.fIdx.toNat]? = some b) : (s.sendBodyByte b).sendRest = s.sendRest := by
  simp only [State.sendRest, drop_of_getElem? hb, State.sendBodyByte, State.emit, State.absorb, hidx, List.map_cons,
    xorFold_cons, List.append_assoc, List.singleton_append, BitVec.xor_assoc]

/-- 41 R135, repeated: as many steps of FRAMING as body bytes are left send them. -/
theorem steps_body {n : Nat} {s : State} (hr : s.rst = false) (hp : s.phase = .framing)
    (hlen : s.fLen = bodyLength s.fOp) (hn : s.fIdx.toNat + n = s.fLen.toNat) : steps n s = .next s.sendRest := by
  induction n generalizing s with
  | zero => rw [steps_zero, State.sendRest_at_end hlen (BitVec.eq_of_toNat_eq hn)]
  | succ n ih =>
    have hlt : s.fIdx < s.fLen := by
      rw [BitVec.lt_def]
      omega
    have hidx : (s.fIdx + 1).toNat = s.fIdx.toNat + 1 := by bv_omega
    have hleft : (s.fIdx + 1).toNat + n = s.fLen.toNat := by omega
    obtain ⟨b, hb, hstep⟩ := framingEmitsBodyByte s hr hp hlen hlt
    calc steps (n + 1) s
      _ = steps n (s.sendBodyByte b) := steps_succ_of_next hstep n
      _ = .next (s.sendBodyByte b).sendRest := ih hr hp hlen hleft
      _ = .next s.sendRest := by rw [State.sendRest_sendBodyByte hidx hb]

/-- Accepting a command, sending its body and its checksum byte is the whole command. -/
theorem State.sendChecksumByte_sendRest_acceptCommand (s : State) (op : BitVec 2) (sid : Byte) (arg : Arg) :
    (s.acceptCommand op sid arg).sendRest.sendChecksumByte =
      s.sendCommand op sid (latchedValue op arg) (latchedCoerced op arg)
        (latchedBody op sid (latchedValue op arg)) := by
  have hlen : BitVec.ofNat 4 (latchedBody op sid (latchedValue op arg)).length = bodyLength op := by
    rw [latchedBody_length, BitVec.ofNat_toNat, BitVec.setWidth_eq]
  simp only [State.sendChecksumByte, State.sendRest, State.sendCommand, State.emit, hlen, frameEvents, outboundChecksum]
  simp [State.acceptCommand, State.startChecksum]

/-- Settles O23: F_LEN steps send the body that acceptance latched, and one more its checksum byte. -/
theorem framerRefinesCommand : Obligations.FramerRefinesCommand := by
  intro op sid arg rest s h ho
  let u := State.acceptCommand { s with offered := rest } op sid arg
  have hbody : steps (bodyLength op).toNat u = .next u.sendRest :=
    steps_body h.rst rfl rfl (Nat.zero_add _)
  have hlast : step u.sendRest = .next u.sendRest.sendChecksumByte :=
    (step_framing (s := u.sendRest) h.rst rfl).trans (framerStep_at_end rfl)
  calc steps ((bodyLength op).toNat + 1 + 1) s
    _ = steps ((bodyLength op).toNat + 1) u := steps_succ_of_next (step_cmd h ho) _
    _ = steps 1 u.sendRest := steps_add hbody 1
    _ = .next u.sendRest.sendChecksumByte := steps_succ_of_next hlast 0
    _ = exec (decodeCmd op sid arg) { s with offered := rest } := by
        rw [exec_cmd_idle (s := { s with offered := rest }) h.phase, ← State.sendChecksumByte_sendRest_acceptCommand]

end Sys2Proof.Machine
end

section
/-! PROOFS. frame_validator: one RX byte, the run of a frame's bytes, VALIDATE as a whole (42 R151 to R161), and the
steps that take RX events (30 R91). -/

namespace Sys2Proof.Machine

open Sys2Proof

/-! ### `validate` as a function (42 R151, R152) -/

/-- 42 R152: the last byte is the inbound checksum exactly when the whole frame folds to zero. -/
theorem validateFrame_eq {raw : List Byte} (h : raw ≠ []) :
    validateFrame raw = some (if xorFold raw = 0 then .ok raw.dropLast else .checksumMismatch) := by
  obtain ⟨P, rc, rfl⟩ : ∃ P rc, raw = P ++ [rc] := ⟨_, _, (List.dropLast_concat_getLast h).symm⟩
  have hzero : xorFold (P ++ [rc]) = 0 ↔ inboundChecksum P = rc := by
    rw [xorFold_append, xorFold_cons, xorFold_nil]
    simp [inboundChecksum]
  simp only [validateFrame_concat, List.dropLast_concat, hzero]

theorem validateFrame_ok_iff {raw : List Byte} (h : raw ≠ []) :
    (∃ P, validateFrame raw = some (.ok P)) ↔ xorFold raw = 0 := by
  rw [validateFrame_eq h]
  split
  next hzero => exact ⟨fun _ => hzero, fun _ => ⟨_, rfl⟩⟩
  next hne => exact ⟨fun ⟨_, hok⟩ => (by cases hok), fun hzero => absurd hzero hne⟩

theorem validateFrame_mismatch_iff {raw : List Byte} (h : raw ≠ []) :
    validateFrame raw = some .checksumMismatch ↔ xorFold raw ≠ 0 := by
  rw [validateFrame_eq h]
  split
  next hzero => exact ⟨fun hmismatch => (by cases hmismatch), fun hne => absurd hzero hne⟩
  next hne => exact ⟨fun _ => hne, fun _ => rfl⟩

/-- Only a payload followed by its inbound checksum validates to it (30 R92). -/
theorem validateFrame_eq_ok {raw P : List Byte} (h : validateFrame raw = some (.ok P)) :
    raw = serializeWithChecksum P := by
  cases raw with
  | nil => cases h
  | cons b bs =>
    have hsplit := List.dropLast_concat_getLast (List.cons_ne_nil b bs)
    rw [← hsplit, validateFrame_concat] at h
    split at h
    next hsum =>
      obtain rfl : (b :: bs).dropLast = P := by simpa using h
      rw [serializeWithChecksum, hsum, hsplit]
    next => cases h

/-- Settles O28: the appended byte is compared with the inbound checksum, which the outbound one never equals. -/
theorem serializeValidateRoundTrip : Obligations.SerializeValidateRoundTrip :=
  fun b => ⟨(validateFrame_concat b _).trans (congrArg some (if_pos rfl)),
    (validateFrame_concat b _).trans (congrArg some (if_neg (outboundChecksum_ne_inboundChecksum b).symm))⟩

/-- Settles O31: both definitions test for the empty sequence first. -/
theorem emptyFrameIsRefused : Obligations.EmptyFrameIsRefused := fun _ => ⟨rfl, rfl⟩

/-! ### One RX byte -/

/-- Storing a byte changes ACC, V_LEN, V_OVF and FB, so any other field, and what is read of it, is kept. -/
theorem State.storeRx_keeps {α : Type} (f : State → α) {s : State} (b : Byte)
    (h : ∀ acc vLen vOvf fb, f { s with acc := acc, vLen := vLen, vOvf := vOvf, fb := fb } = f s) :
    f (s.storeRx b) = f s := by
  by_cases hroom : s.vLen < s.cfg.nMax
  · rw [storeRx_room b hroom]
    exact h _ _ _ _
  · rw [storeRx_full b hroom]
    exact h _ _ _ _

theorem State.storeRx_acc (s : State) (b : Byte) : (s.storeRx b).acc = s.acc ^^^ b := by
  by_cases hroom : s.vLen < s.cfg.nMax
  · rw [storeRx_room b hroom]
  · rw [storeRx_full b hroom]

/-- The verdict ends the frame or starts decoding; what neither changes it keeps. -/
theorem State.verdict_keeps {α : Type} (f : State → α) {s : State} (hraise : ∀ st, f (s.raise st 0 0) = f s)
    (hstart : f s.decodeStart = f s) : f s.verdict = f s := by
  rcases verdict_cases s with ⟨-, h⟩ | ⟨-, -, h⟩ | ⟨-, -, h⟩ <;> rw [h]
  exacts [hraise _, hraise _, hstart]

theorem State.verdict_phase (s : State) : s.verdict.phase = .idle ∨ s.verdict.phase = .decoding := by
  rcases verdict_cases s with ⟨-, h⟩ | ⟨-, -, h⟩ | ⟨-, -, h⟩ <;> rw [h]
  exacts [.inl rfl, .inl rfl, .inr rfl]

theorem State.rxEvent_idle {s : State} (h : s.phase = .idle) (b : Byte) (last : Bool) :
    s.rxEvent b last = s.frameStart.rxEvent b last := by
  simp only [State.rxEvent, h, State.frameStart_phase]

theorem State.rxEvent_receiving {s : State} (h : s.phase = .receiving) (b : Byte) :
    s.rxEvent b false = s.storeRx b := by
  simp [State.rxEvent, h, State.receiveByte]

theorem State.rxEvent_receiving_last {s : State} (h : s.phase = .receiving) (b : Byte) :
    s.rxEvent b true = (s.storeRx b).verdict := by
  simp [State.rxEvent, h, State.receiveByte]

/-- The phases in which a step takes an RX event: RECEIVING, and IDLE with events one at a time (20 R60). -/
def TakesRx (s : State) : Prop := s.phase = .receiving ∨ (s.phase = .idle ∧ s.cfg.grain = .event)

theorem TakesRx.phase_rxEvent {s : State} (h : TakesRx s) (b : Byte) :
    (s.rxEvent b false).phase = .receiving ∧
      ((s.rxEvent b true).phase = .idle ∨ (s.rxEvent b true).phase = .decoding) := by
  have hreceiving : ∀ u : State, u.phase = .receiving →
      (u.rxEvent b false).phase = .receiving ∧
        ((u.rxEvent b true).phase = .idle ∨ (u.rxEvent b true).phase = .decoding) := by
    intro u hu
    rw [State.rxEvent_receiving hu, State.rxEvent_receiving_last hu, storeRx_phase]
    exact ⟨hu, State.verdict_phase _⟩
  rcases h with h | ⟨h, -⟩
  · exact hreceiving s h
  · rw [State.rxEvent_idle h, State.rxEvent_idle h]
    exact hreceiving _ rfl

/-- The RX event offered first is taken. -/
theorem step_rx {s : State} (hr : s.rst = false) (h : TakesRx s) {b : Byte} {last : Bool} {rest : List PortEvent}
    (ho : s.offered = .rx b last :: rest) : step s = .next (State.rxEvent { s with offered := rest } b last) := by
  rcases h with hp | ⟨hp, hg⟩
  · exact step_receiving hr hp (by rw [ho, takeRx_cons_rx])
  · refine step_of_action (a := .receive b last rest) ?_
    rw [nextAction_idle hr hp]
    simp only [idleAction, hg, ho]

/-- What the start of a frame, the storing of a byte and the verdict keep, an RX event keeps. -/
theorem State.rxEvent_keeps {α : Type} (f : State → α) (hstart : ∀ s : State, f s.frameStart = f s)
    (hstore : ∀ (s : State) (b : Byte), f (s.storeRx b) = f s) (hverdict : ∀ s : State, f s.verdict = f s) (s : State)
    (b : Byte) (last : Bool) : f (s.rxEvent b last) = f s := by
  have hbyte : ∀ u : State, f (u.receiveByte b last) = f u := by
    intro u
    cases last with
    | false => exact hstore u b
    | true => exact (hverdict _).trans (hstore u b)
  rcases rxEvent_cases s b last with ⟨-, h⟩ | ⟨-, h⟩ | ⟨-, h⟩ <;> rw [h]
  exacts [(hbyte _).trans (hstart s), hbyte s]

theorem State.rxEvent_offered (s : State) (b : Byte) (last : Bool) : (s.rxEvent b last).offered = s.offered :=
  State.rxEvent_keeps State.offered (fun _ => rfl) (fun _ b => State.storeRx_keeps _ b fun _ _ _ _ => rfl)
    (fun _ => State.verdict_keeps _ (fun _ => rfl) rfl) s b last

theorem State.rxEvent_rst (s : State) (b : Byte) (last : Bool) : (s.rxEvent b last).rst = s.rst :=
  State.rxEvent_keeps State.rst (fun _ => rfl) (fun _ b => State.storeRx_keeps _ b fun _ _ _ _ => rfl)
    (fun _ => State.verdict_keeps _ (fun _ => rfl) rfl) s b last

theorem State.rxRun_offered (s : State) (raw : List Byte) : (s.rxRun raw).offered = s.offered := by
  induction raw generalizing s with
  | nil => rfl
  | cons b bs ih =>
    cases bs with
    | nil => exact s.rxEvent_offered b true
    | cons c cs => exact (ih _).trans (s.rxEvent_offered b false)

/-- Settles O24: the frame starts, and cell 0 is the first one there is room for. -/
theorem firstByteStartsFrame : Obligations.FirstByteStartsFrame := by
  intro b rest s h hroom ho
  let u : State := State.frameStart { s with offered := rest }
  have hstored : State.rxEvent { s with offered := rest } b false =
      { u with acc := u.acc ^^^ b, fb := fbSet u.fb 0 b, vLen := 0 + 1 } := by
    rw [State.rxEvent_idle (s := { s with offered := rest }) h.phase, State.rxEvent_receiving rfl]
    exact storeRx_room b hroom
  refine ⟨_, step_rx h.rst (.inr ⟨h.phase, h.grain⟩) ho, ?_⟩
  rw [hstored]
  exact ⟨rfl, BitVec.zero_xor, rfl, rfl, rfl, fbGet_fbSet_same _ _ _, fun a ha => fbGet_fbSet_other _ _ ha,
    ⟨rfl, rfl, rfl, rfl, rfl, rfl⟩, ⟨rfl, rfl⟩, rfl, rfl, rfl, (List.append_nil _).symm⟩

/-- Settles O25: the two ways of storing a byte. -/
theorem receivedByteIsFoldedAndStored : Obligations.ReceivedByteIsFoldedAndStored := by
  intro b rest s hr hp ho
  let u : State := { s with offered := rest }
  have hkept : Emits s u [] := (List.append_nil _).symm
  refine ⟨_, step_rx hr (.inl hp) ho, ?_⟩
  rw [State.rxEvent_receiving (s := u) hp]
  by_cases hroom : s.vLen < s.cfg.nMax
  · rw [storeRx_room (s := u) b hroom]
    exact ⟨rfl, rfl, hp, fun _ => ⟨rfl, rfl, fbGet_fbSet_same _ _ _, fun a ha => fbGet_fbSet_other _ _ ha⟩,
      fun hfull => absurd hroom (Nat.not_lt.2 hfull), ⟨rfl, rfl, rfl, rfl, rfl, rfl⟩, ⟨rfl, rfl⟩, rfl, rfl, rfl, hkept⟩
  · rw [storeRx_full (s := u) b hroom]
    exact ⟨rfl, rfl, hp, fun h => absurd h hroom, fun _ => ⟨rfl, rfl, fun _ => rfl⟩, ⟨rfl, rfl, rfl, rfl, rfl, rfl⟩,
      ⟨rfl, rfl⟩, rfl, rfl, rfl, hkept⟩

/-- V_OVF after a byte: an overflow is remembered (42 R157). -/
theorem State.storeRx_vOvf (s : State) (b : Byte) :
    (s.storeRx b).vOvf = true ↔ s.vOvf = true ∨ s.cfg.nMax ≤ s.vLen := by
  by_cases hroom : s.vLen < s.cfg.nMax
  · rw [storeRx_room b hroom]
    simp [hroom]
  · rw [storeRx_full b hroom]
    simp [Nat.not_lt.1 hroom]

/-- Settles O26: the three verdicts, on the state that the last byte has been stored in. -/
theorem lastByteGivesVerdict : Obligations.LastByteGivesVerdict := by
  intro b rest s hr hp ho
  let u : State := State.storeRx { s with offered := rest } b
  have hacc : u.acc = s.acc ^^^ b := State.storeRx_acc _ _
  have hovf : u.vOvf = true ↔ s.vOvf = true ∨ s.cfg.nMax ≤ s.vLen := State.storeRx_vOvf _ _
  have hdLen : u.dLen = s.dLen := State.storeRx_keeps State.dLen b fun _ _ _ _ => rfl
  have hdCur : u.dCur = s.dCur := State.storeRx_keeps State.dCur b fun _ _ _ _ => rfl
  have hemitted : u.emitted = s.emitted := State.storeRx_keeps State.emitted b fun _ _ _ _ => rfl
  have hmode : u.mode = s.mode := State.storeRx_keeps State.mode b fun _ _ _ _ => rfl
  have hraised : ∀ st, Emits s (u.raise st 0 0) [.ev (.finish st 0 0)] ∧ (u.raise st 0 0).phase = .idle ∧
      SameDecoder s (u.raise st 0 0) :=
    fun st => ⟨by rw [Emits, State.raise_emitted, hemitted], rfl, hdLen, hdCur⟩
  refine ⟨_, step_rx hr (.inl hp) ho, ?_⟩
  rw [State.rxEvent_receiving_last (s := { s with offered := rest }) hp, ← hacc]
  rcases verdict_cases u with ⟨hne, h⟩ | ⟨hzero, hover, h⟩ | ⟨hzero, hfits, h⟩ <;> rw [h]
  · exact ⟨rfl, hmode, fun _ => hraised _, fun hz => absurd hz hne, fun hz => absurd hz hne⟩
  · refine ⟨rfl, hmode, fun hne => absurd hzero hne, fun _ _ => hraised _, fun _ hno hroom => ?_⟩
    rcases hovf.1 hover with hov | hfull
    · rw [hno] at hov
      cases hov
    · exact absurd hroom (Nat.not_lt.2 hfull)
  · refine ⟨rfl, hmode, fun hne => absurd hzero hne, fun _ hov => ?_, fun _ _ hroom => ?_⟩
    · rw [hovf.2 hov] at hfits
      cases hfits
    · have hvLen : u.vLen = s.vLen + 1 := congrArg State.vLen (storeRx_room (s := { s with offered := rest }) b hroom)
      refine ⟨hemitted.trans (List.append_nil _).symm, rfl, ?_, ?_⟩
      · rw [State.decodeStart_dLen, hvLen, Nat.add_sub_cancel]
      · rw [State.decodeStart_dCur, hvLen, Nat.add_sub_cancel]

/-! ### The bytes of a frame -/

/-- The bytes stored one after another. -/
def State.storeAll (s : State) (raw : List Byte) : State := raw.foldl State.storeRx s

/-- What the bytes leave: ACC their fold, FB filled up to the capacity, V_OVF set when they were more. -/
theorem State.storeAll_eq {s : State} (h : s.vLen ≤ s.cfg.nMax) (raw : List Byte) :
    s.storeAll raw =
      { s with
        acc := s.acc ^^^ xorFold raw, vLen := min (s.vLen + raw.length) s.cfg.nMax
        vOvf := s.vOvf || decide (s.cfg.nMax < s.vLen + raw.length)
        fb := storeBytes s.fb s.vLen (raw.take (s.cfg.nMax - s.vLen)) } := by
  induction raw generalizing s with
  | nil => simp [State.storeAll, storeBytes, Nat.min_eq_left h, Nat.not_lt.2 h]
  | cons b bs ih =>
    have hcons : s.storeAll (b :: bs) = (s.storeRx b).storeAll bs := rfl
    by_cases hroom : s.vLen < s.cfg.nMax
    · have hspace : s.cfg.nMax - s.vLen = s.cfg.nMax - (s.vLen + 1) + 1 := by omega
      have hlen : s.vLen + 1 + bs.length = s.vLen + (bs.length + 1) := by omega
      have hstored := storeRx_room b hroom
      rw [hcons, ih (by rw [hstored]; exact hroom), hstored]
      simp only [hspace, hlen, List.length_cons, List.take_succ_cons, storeBytes, xorFold_cons, BitVec.xor_assoc]
    · have hfull : s.vLen = s.cfg.nMax := Nat.le_antisymm h (Nat.not_lt.1 hroom)
      have hstored := storeRx_full b hroom
      rw [hcons, ih (by rw [hstored]; exact h), hstored]
      simp [hfull, storeBytes, BitVec.xor_assoc]

/-- A field that storing a byte keeps is kept by all the bytes. -/
theorem State.storeAll_keeps {α : Type} (f : State → α) (h : ∀ (s : State) (b : Byte), f (s.storeRx b) = f s)
    (s : State) (raw : List Byte) : f (s.storeAll raw) = f s := by
  induction raw generalizing s with
  | nil => rfl
  | cons b bs ih => exact (ih (s.storeRx b)).trans (h s b)

theorem State.storeAll_acc (s : State) (raw : List Byte) : (s.storeAll raw).acc = s.acc ^^^ xorFold raw := by
  induction raw generalizing s with
  | nil => exact BitVec.xor_zero.symm
  | cons b bs ih => exact (ih (s.storeRx b)).trans (by rw [State.storeRx_acc, xorFold_cons, BitVec.xor_assoc])

/-- In RECEIVING the events of a frame store its bytes, then comes the verdict (42 R157 to R160). -/
theorem State.rxRun_receiving {s : State} (h : s.phase = .receiving) {raw : List Byte} (hraw : raw ≠ []) :
    s.rxRun raw = (s.storeAll raw).verdict := by
  induction raw generalizing s with
  | nil => exact absurd rfl hraw
  | cons b bs ih =>
    cases bs with
    | nil => exact State.rxEvent_receiving_last h b
    | cons c cs =>
      rw [State.rxRun, State.rxEvent_receiving h, ih ((storeRx_phase s b).trans h) (List.cons_ne_nil c cs)]
      rfl

/-- In IDLE the first event starts the frame (42 R156). -/
theorem State.rxRun_idle {s : State} (h : s.phase = .idle) {raw : List Byte} (hraw : raw ≠ []) :
    s.rxRun raw = s.frameStart.rxRun raw := by
  match raw with
  | [] => exact absurd rfl hraw
  | [b] => exact State.rxEvent_idle h b true
  | b :: c :: cs => rw [State.rxRun, State.rxEvent_idle h, ← State.rxRun]

/-- The state in which the verdict on a frame that began in IDLE is given. -/
def State.received (s : State) (raw : List Byte) : State :=
  { s.frameStart with
    acc := xorFold raw, vLen := min raw.length s.cfg.nMax, vOvf := decide (s.cfg.nMax < raw.length)
    fb := storeBytes s.fb 0 (raw.take s.cfg.nMax) }

theorem exec_validate_idle {s : State} (h : s.phase = .idle) {raw : List Byte} (hraw : raw ≠ []) :
    exec (.validate raw) s = .next (s.received raw).verdict := by
  rw [execValidate_of_ne_nil hraw, State.rxRun_idle h hraw, State.rxRun_receiving rfl hraw,
    State.storeAll_eq (s := s.frameStart) (Nat.zero_le _)]
  simp [State.received]

/-! ### VALIDATE -/

theorem State.received_verdict_mismatch {s : State} {raw : List Byte} (h : xorFold raw ≠ 0) :
    (s.received raw).verdict = (s.received raw).raise .checksumMismatch 0 0 := by
  rcases verdict_cases (s.received raw) with ⟨-, h'⟩ | ⟨hzero, -⟩ | ⟨hzero, -⟩
  exacts [h', absurd hzero h, absurd hzero h]

theorem State.received_verdict_overflow {s : State} {raw : List Byte} (h : xorFold raw = 0)
    (hlen : s.cfg.nMax < raw.length) : (s.received raw).verdict = (s.received raw).raise .frameOverflow 0 0 := by
  rcases verdict_cases (s.received raw) with ⟨hne, -⟩ | ⟨-, -, h'⟩ | ⟨-, hfits, -⟩
  exacts [absurd h hne, h', absurd hlen (of_decide_eq_false hfits)]

theorem State.received_verdict_ok {s : State} {raw : List Byte} (h : xorFold raw = 0)
    (hlen : raw.length ≤ s.cfg.nMax) : (s.received raw).verdict = (s.received raw).decodeStart := by
  rcases verdict_cases (s.received raw) with ⟨hne, -⟩ | ⟨-, hover, -⟩ | ⟨-, -, h'⟩
  exacts [absurd h hne, absurd (of_decide_eq_true hover) (Nat.not_lt.2 hlen), h']

/-- The bytes stand in FB from index 0 up to the capacity, every other cell is as before. -/
theorem State.fbGet_received (s : State) (raw : List Byte) (a : Nat) :
    fbGet (s.received raw).fb a = if a < min raw.length s.cfg.nMax then raw[a]? else fbGet s.fb a := by
  rw [State.received, fbGet_storeBytes, List.length_take, Nat.zero_add, Nat.min_comm]
  simp only [Nat.zero_le, true_and, Nat.sub_zero]
  split
  next ha => rw [List.getElem?_take_of_lt (Nat.lt_of_lt_of_le ha (Nat.min_le_right _ _))]
  next => rfl

/-- A frame that fits stands in FB whole. -/
theorem State.readCells_received {s : State} {P : List Byte} {rc : Byte} (h : (P ++ [rc]).length ≤ s.cfg.nMax) :
    readCells (s.received (P ++ [rc])).fb 0 P.length = .ok P := by
  refine readCells_of_get fun i hi => ?_
  have hin : i < min (P ++ [rc]).length s.cfg.nMax := by
    rw [Nat.min_eq_left h, List.length_append]
    omega
  rw [Nat.zero_add, State.fbGet_received, if_pos hin, List.getElem?_append_left hi]

/-- Settles O29: VALIDATE gives the verdict on `received`, and `validate` tests the same fold. -/
theorem validateCompletes : Obligations.ValidateCompletes := by
  intro raw s hp hraw
  refine ⟨_, exec_validate_idle hp hraw, State.verdict_keeps State.mode (fun _ => rfl) rfl,
    State.verdict_keeps State.acc (fun _ => rfl) rfl, State.verdict_keeps State.vLen (fun _ => rfl) rfl,
    State.verdict_keeps State.vOvf (fun _ => rfl) rfl, ?_⟩
  have hfb : (s.received raw).verdict.fb = (s.received raw).fb := State.verdict_keeps State.fb (fun _ => rfl) rfl
  have hframer : SameFramer s (s.received raw).verdict := by
    rcases verdict_cases (s.received raw) with ⟨-, h⟩ | ⟨-, -, h⟩ | ⟨-, -, h⟩ <;> rw [h] <;>
      exact ⟨rfl, rfl, rfl, rfl, rfl, rfl⟩
  have houtside : SameOutside s (s.received raw).verdict := by
    rcases verdict_cases (s.received raw) with ⟨-, h⟩ | ⟨-, -, h⟩ | ⟨-, -, h⟩ <;> rw [h] <;> exact ⟨rfl, rfl, rfl⟩
  refine ⟨fun a ha => ?_, fun a ha => ?_, hframer, houtside, fun hm => ?_, fun P hok hlen => ?_, fun P hok hlen => ?_⟩
  · rw [hfb, State.fbGet_received, if_pos ha]
  · rw [hfb, State.fbGet_received, if_neg (Nat.not_lt.2 ha)]
  · rw [State.received_verdict_mismatch ((validateFrame_mismatch_iff hraw).1 hm)]
    exact ⟨rfl, ⟨rfl, rfl⟩, rfl⟩
  · rw [State.received_verdict_overflow ((validateFrame_ok_iff hraw).1 ⟨P, hok⟩) hlen]
    exact ⟨rfl, ⟨rfl, rfl⟩, rfl⟩
  · rw [State.received_verdict_ok ((validateFrame_ok_iff hraw).1 ⟨P, hok⟩) hlen]
    obtain rfl := validateFrame_eq_ok hok
    have hdLen : (s.received (serializeWithChecksum P)).vLen - 1 = P.length := by
      have hone : (serializeWithChecksum P).length = P.length + 1 := List.length_append
      rw [State.received, Nat.min_eq_left hlen, hone, Nat.add_sub_cancel]
    rw [State.decodeStart_dLen, State.decodeStart_dCur, hdLen]
    exact ⟨rfl, rfl, rfl, State.readCells_received hlen, (List.append_nil _).symm⟩

/-- Settles O8: the registers that reset, `sendCommand` and VALIDATE leave. -/
theorem checksumResidue : Obligations.ChecksumResidue := by
  refine ⟨⟨rfl, rfl⟩, fun op sid arg s h => ?_, fun raw s h hraw => ?_, fun m b s h => ?_⟩
  · exact ⟨_, exec_cmd_idle h op sid arg, rfl, rfl, rfl, [.cst (latchedCoerced op arg)], rfl⟩
  · obtain ⟨t, ht, hmode, hacc, -⟩ := validateCompletes raw s h hraw
    exact ⟨t, ht, hmode, hacc, by rw [hacc, validateFrame_ok_iff hraw]⟩
  · exact ⟨exec_ckAbsorb_idle h m b, exec_ckRead_idle h m b⟩

/-! ### The RX events of a frame, one by one (30 R91) -/

/-- The state with these events offered instead. -/
def State.withOffered (s : State) (es : List PortEvent) : State := { s with offered := es }

theorem State.storeRx_withOffered (s : State) (es : List PortEvent) (b : Byte) :
    (s.withOffered es).storeRx b = (s.storeRx b).withOffered es := by
  simp only [State.storeRx, apply_ite (State.withOffered · es)]
  rfl

theorem State.verdict_withOffered (s : State) (es : List PortEvent) :
    (s.withOffered es).verdict = s.verdict.withOffered es := by
  simp only [State.verdict, apply_ite (State.withOffered · es)]
  rfl

/-- An RX event takes no notice of what else is offered. -/
theorem State.rxEvent_withOffered {s : State} (h : TakesRx s) (es : List PortEvent) (b : Byte) (last : Bool) :
    (s.withOffered es).rxEvent b last = (s.rxEvent b last).withOffered es := by
  have hbyte : ∀ u : State, (u.withOffered es).receiveByte b last = (u.receiveByte b last).withOffered es := by
    intro u
    cases last with
    | false => exact u.storeRx_withOffered es b
    | true => exact (congrArg State.verdict (u.storeRx_withOffered es b)).trans (State.verdict_withOffered _ es)
  rcases h with h | ⟨h, -⟩
  · have hw : (s.withOffered es).phase = .receiving := h
    simp only [State.rxEvent, h, hw, hbyte]
  · have hw : (s.withOffered es).phase = .idle := h
    simp only [State.rxEvent, h, hw, ← hbyte]
    rfl

/-- As many steps as bytes reach the run of the frame's RX events. -/
theorem steps_rxEvents {raw : List Byte} (hraw : raw ≠ []) {rest : List PortEvent} {s : State} (hr : s.rst = false)
    (h : TakesRx s) (ho : s.offered = rxEvents raw ++ rest) :
    steps raw.length s = .next ((s.withOffered rest).rxRun raw) := by
  induction raw generalizing s with
  | nil => exact absurd rfl hraw
  | cons b bs ih =>
    cases bs with
    | nil => exact steps_succ_of_next (step_rx hr h ho) 0
    | cons c cs =>
      let u := s.withOffered (rxEvents (c :: cs) ++ rest)
      have hu : TakesRx u := h
      have hnext : (u.rxEvent b false).withOffered rest = (s.withOffered rest).rxEvent b false :=
        (State.rxEvent_withOffered hu rest b false).symm
      calc steps ((c :: cs).length + 1) s
        _ = steps (c :: cs).length (u.rxEvent b false) := steps_succ_of_next (step_rx hr h ho) _
        _ = .next (((u.rxEvent b false).withOffered rest).rxRun (c :: cs)) :=
            ih (List.cons_ne_nil c cs) ((u.rxEvent_rst b false).trans hr) (.inl (hu.phase_rxEvent b).1)
              (u.rxEvent_offered b false)
        _ = .next ((s.withOffered rest).rxRun (b :: c :: cs)) := by rw [hnext, State.rxRun]

/-- Settles O30: both are the run of the frame's RX events; in RECEIVING it stores the bytes and gives the verdict. -/
theorem rxEventsRefineValidate : Obligations.RxEventsRefineValidate := by
  refine ⟨fun raw rest s h hraw ho => ?_, fun raw rest s hr hp hraw ho => ?_⟩
  · rw [steps_rxEvents hraw h.rst (.inr ⟨h.phase, h.grain⟩) ho, execValidate_of_ne_nil hraw]
    rfl
  · rw [steps_rxEvents hraw hr (.inl hp) ho, execValidate_of_ne_nil hraw,
      State.rxRun_receiving (s := { s with offered := rest }) hp hraw]
    refine ⟨congrArg _ (State.rxRun_receiving (s := s.withOffered rest) hp hraw), _, rfl, ?_, ?_, State.verdict_phase _⟩
    · have hstored := State.storeAll_keeps State.mode (fun _ _ => State.storeRx_keeps _ _ fun _ _ _ _ => rfl)
        { s with offered := rest } raw
      exact (State.verdict_keeps State.mode (fun _ => rfl) rfl).trans hstored
    · exact (State.verdict_keeps State.acc (fun _ => rfl) rfl).trans (State.storeAll_acc { s with offered := rest } raw)

end Sys2Proof.Machine
end

section
/-! PROOFS. field_decoder: what each segment does (43 R176 to R188), the passes from the frame buffer, and DECODE as the
run of its passes. -/

namespace Sys2Proof.Machine

open Sys2Proof

/-- Settles O44: the formula is the two's complement value, whose closed form and range are the library's. -/
theorem signedConversion : Obligations.SignedConversion := by
  intro v
  obtain ⟨hlo, hhi⟩ := signed16_bounds v
  refine ⟨signed16_eq_toInt v, ?_, hlo, hhi, axisCount_eq v⟩
  rw [signed16_eq_toInt, BitVec.toInt_eq_toNat_cond]
  have hlt := v.isLt
  split <;> split <;> omega

/-! ### Segments -/

section
variable {s : State} (h : s.phase = .decoding)
include h

theorem exec_sensorInstr (kind : ReadingKind) (axes : Option Triple) :
    exec (sensorInstr kind axes) s = .next (s.sensorSegment kind axes) := by
  cases kind <;> exact whenDecoding_decoding h

theorem exec_segEnableAck (ack : Option AckBytes) : exec (.segEnableAck ack) s = .next (s.ackSegment ack) :=
  whenDecoding_decoding h

theorem exec_segUnknown (tag : Byte) : exec (.segUnknown tag) s = .next (s.raise .unknownSegmentType tag s.dCur) :=
  whenDecoding_decoding h

theorem exec_decode (P : List Byte) : exec (.decode P) s = .next (s.decodeWhole P) := whenDecoding_decoding h

end

/-- A full sensor segment emits the raw counts and strides over the tag and six bytes (43 R176, R178). -/
theorem State.sensorSegment_some (s : State) (kind : ReadingKind) (v : Triple) :
    s.sensorSegment kind (some v) =
      { s with emitted := s.emitted ++ [.ev (.reading kind v.x v.y v.z (kind == .acc))], dCur := s.dCur + 7 } := by
  rw [State.sensorSegment, readingOf_eq, axisCount_eq, axisCount_eq, axisCount_eq, State.emit]

/-- Settles O32: the segments of the three tags are `sensorSegment` of their kinds. -/
theorem sensorSegmentReadings : Obligations.SensorSegmentReadings := by
  refine ⟨fun _ _ _ _ _ _ => ⟨rfl, rfl, rfl⟩, fun v s h => ?_⟩
  have hfull (kind : ReadingKind) := (exec_sensorInstr h kind (some v)).trans (congrArg _ (s.sensorSegment_some kind v))
  have hcut (kind : ReadingKind) := exec_sensorInstr h kind none
  exact ⟨hfull .acc, hfull .mag, hfull .gyro, hcut .acc, hcut .mag, hcut .gyro⟩

/-- Settles O33: both cases of `ackSegment`. -/
theorem enableAckStride : Obligations.EnableAckStride :=
  fun sid flag _ h => ⟨exec_segEnableAck h (some { sid := sid, flag := flag }), exec_segEnableAck h none⟩

/-- Settles O34: an undefined tag raises its fault at the cursor. -/
theorem unknownTagEndsFrame : Obligations.UnknownTagEndsFrame := fun tag _ h => exec_segUnknown h tag

/-- The instructions of one segment (43 R175). -/
def IsSegment (i : Instr) : Prop :=
  (∃ kind axes, i = sensorInstr kind axes) ∨ (∃ ack, i = .segEnableAck ack) ∨ ∃ tag, i = .segUnknown tag

theorem needsDecoding_of_segment {i : Instr} (h : IsSegment i) : needsDecoding i = true := by
  rcases h with ⟨kind, axes, rfl⟩ | ⟨ack, rfl⟩ | ⟨tag, rfl⟩
  · cases kind <;> rfl
  · rfl
  · rfl

/-- All that a segment can do in DECODING: one event and a stride, or the END that leaves the cursor on the tag. -/
theorem exec_segment_decoding {i : Instr} (hi : IsSegment i) {s : State} (h : s.phase = .decoding) :
    (∃ e cur, exec i s = .next { s with emitted := s.emitted ++ [.ev e], dCur := cur }) ∨
      ∃ st tag, exec i s = .next (s.raise st tag s.dCur) := by
  rcases hi with ⟨kind, axes, rfl⟩ | ⟨ack, rfl⟩ | ⟨tag, rfl⟩
  · rw [exec_sensorInstr h]
    rcases sensorSegment_cases s kind axes with ⟨v, -, hv⟩ | ⟨-, hv⟩ <;> rw [hv]
    exacts [.inl ⟨_, _, rfl⟩, .inr ⟨_, _, rfl⟩]
  · rw [exec_segEnableAck h]
    rcases ackSegment_cases s ack with ⟨a, -, ha⟩ | ⟨-, ha⟩ <;> rw [ha]
    exacts [.inl ⟨_, _, rfl⟩, .inr ⟨_, _, rfl⟩]
  · exact .inr ⟨_, _, exec_segUnknown h tag⟩

/-- Settles O48: `exec_segment_decoding` in DECODING, and nothing elsewhere. -/
theorem segmentsFrame : Obligations.SegmentsFrame := by
  intro i s t hi he
  have hseg : IsSegment i := by
    rcases hi with ⟨a, rfl⟩ | ⟨v, rfl | rfl | rfl⟩ | ⟨tag, rfl⟩
    exacts [.inr (.inl ⟨a, rfl⟩), .inl ⟨.acc, v, rfl⟩, .inl ⟨.mag, v, rfl⟩, .inl ⟨.gyro, v, rfl⟩,
      .inr (.inr ⟨tag, rfl⟩)]
  by_cases h : s.phase = .decoding
  · rcases exec_segment_decoding hseg h with ⟨e, cur, hnext⟩ | ⟨st, tag, hnext⟩ <;> cases hnext.symm.trans he
    · exact ⟨⟨rfl, rfl⟩, ⟨rfl, rfl, rfl, rfl, rfl, rfl⟩, ⟨rfl, rfl⟩, rfl, ⟨rfl, rfl, rfl⟩, fun _ => rfl, .inl rfl,
        fun _ => ⟨_, rfl⟩⟩
    · exact ⟨⟨rfl, rfl⟩, ⟨rfl, rfl, rfl, rfl, rfl, rfl⟩, ⟨rfl, rfl⟩, rfl, ⟨rfl, rfl, rfl⟩, fun _ => rfl,
        .inr ⟨rfl, rfl⟩, fun _ => ⟨_, rfl⟩⟩
  · cases (exec_notDecoding (needsDecoding_of_segment hseg) h).symm.trans he
    exact ⟨⟨rfl, rfl⟩, ⟨rfl, rfl, rfl, rfl, rfl, rfl⟩, ⟨rfl, rfl⟩, rfl, ⟨rfl, rfl, rfl⟩, fun _ => rfl, .inl rfl,
      fun hd => absurd hd h⟩

/-! ### Passes from the frame buffer -/

section
variable {s : State} (h : DecodingByPasses s) (hlt : s.dCur < s.dLen)
include h hlt

/-- A pass over a sensor tag whose six bytes lie inside the payload. -/
theorem step_sensor {kind : ReadingKind} {bs : List Byte} (htag : fbGet s.fb s.dCur = some kind.tag)
    (hfits : s.dCur + 7 ≤ s.dLen) (hbytes : readCells s.fb (s.dCur + 1) 6 = .ok bs) :
    step s = .next (s.sensorSegment kind (axesOf bs)) := by
  have hfetch : segmentBytes s = .ok (kind.tag :: bs) :=
    segmentBytes_full hlt htag (by rw [bytesAfterTag_sensor]; omega) (by rw [bytesAfterTag_sensor, hbytes])
  rw [step_pass_segment h hlt hfetch (decodeSegment_sensor kind bs), exec_sensorInstr h.phase]

theorem step_sensorCut {kind : ReadingKind} (htag : fbGet s.fb s.dCur = some kind.tag) (hcut : s.dLen < s.dCur + 7) :
    step s = .next (s.sensorSegment kind none) := by
  have hfetch : segmentBytes s = .ok [kind.tag] :=
    segmentBytes_cut hlt htag (by rw [bytesAfterTag_sensor]; omega)
  rw [step_pass_segment h hlt hfetch (decodeSegment_sensor kind []), exec_sensorInstr h.phase]
  rfl

/-- A pass over an enable-ack tag with two bytes behind it. -/
theorem step_ack {sid flag : Byte} (htag : fbGet s.fb s.dCur = some 1) (hfits : s.dCur + 3 ≤ s.dLen)
    (hsid : fbGet s.fb (s.dCur + 1) = some sid) (hflag : fbGet s.fb (s.dCur + 2) = some flag) :
    step s = .next (s.ackSegment (some { sid := sid, flag := flag })) := by
  have hbytes : readCells s.fb (s.dCur + 1) 2 = .ok [sid, flag] :=
    readCells_succ_ok.2 ⟨sid, _, hsid, readCells_succ_ok.2 ⟨flag, [], hflag, rfl, rfl⟩, rfl⟩
  have hfetch : segmentBytes s = .ok [1, sid, flag] :=
    segmentBytes_full hlt htag (by rw [bytesAfterTag_ack]; omega) (by rw [bytesAfterTag_ack, hbytes])
  rw [step_pass_segment h hlt hfetch (decodeSegment_ack _), exec_segEnableAck h.phase]
  rfl

theorem step_ackCut (htag : fbGet s.fb s.dCur = some 1) (hcut : s.dLen < s.dCur + 3) :
    step s = .next (s.ackSegment none) := by
  have hfetch : segmentBytes s = .ok [1] := segmentBytes_cut hlt htag (by rw [bytesAfterTag_ack]; omega)
  rw [step_pass_segment h hlt hfetch (decodeSegment_ack _), exec_segEnableAck h.phase]
  rfl

end

/-- Settles O35: the fetch reads the seven bytes, and the counts are the pairs themselves. -/
theorem fullSensorSegmentStep : Obligations.FullSensorSegmentStep := by
  intro kind lx hx ly hy lz hz s h hfits hcells
  obtain ⟨t, bs, htag, hbytes, heq⟩ := readCells_succ_ok.1 hcells
  obtain ⟨rfl, rfl⟩ := List.cons.inj heq
  refine ⟨le16 lx hx, le16 ly hy, le16 lz hz, ?_, (signed16_eq_toInt _).symm, (signed16_eq_toInt _).symm,
    (signed16_eq_toInt _).symm⟩
  rw [step_sensor h (by omega) htag hfits hbytes]
  exact congrArg _ (s.sensorSegment_some kind _)

/-- Settles O36: the bound check fails before anything behind the tag is read. -/
theorem truncatedSensorStep : Obligations.TruncatedSensorStep :=
  fun _ _ h hlt hcut htag => step_sensorCut h hlt htag hcut

/-- Settles O37: the fetch reads the two ack bytes and no more. -/
theorem enableAckStep : Obligations.EnableAckStep :=
  fun _ h hlt htag => ⟨fun _ _ hfits hsid hflag => step_ack h hlt htag hfits hsid hflag, step_ackCut h hlt htag⟩

/-! ### DECODE as a whole -/

/-- The loop's cursor is past the length byte (43 R173). -/
theorem decodeRun_cursor_ge {P : List Byte} (h : P ≠ []) : 1 ≤ (decodeRun P).2 := by
  obtain ⟨b, bs, rfl⟩ := List.exists_cons_of_ne_nil h
  exact (decodeLoop_cursor_le (b :: bs).length (b :: bs).length 1 bs (.inl rfl)).1

/-- Settles O40: the fields of `decodeWhole`, and the bounds of the loop's cursor. -/
theorem decodeCompletes : Obligations.DecodeCompletes :=
  fun P _ h => ⟨_, exec_decode h P, rfl, rfl, rfl, decodeRun_cursor_le P, decodeRun_cursor_ge, ⟨rfl, rfl⟩,
    ⟨rfl, rfl, rfl, rfl, rfl, rfl⟩, ⟨rfl, rfl⟩, ⟨rfl, rfl, rfl⟩, fun _ => rfl⟩

/-- A list of events that one END ends, with at most `n` events before it (10 R37). -/
def EndsOnceWithin (n : Nat) (out : List EvEvent) : Prop :=
  ∃ init st tag off, out = init ++ [.finish st tag off] ∧
    (∀ e ∈ init, ∀ st' tag' off', e ≠ EvEvent.finish st' tag' off') ∧ init.length ≤ n

theorem EndsOnceWithin.single (n : Nat) (st : EndStatus) (tag : Byte) (off : Nat) :
    EndsOnceWithin n [.finish st tag off] :=
  ⟨[], st, tag, off, rfl, fun _ he => (by cases he), Nat.zero_le n⟩

theorem EndsOnceWithin.cons {n m : Nat} {out : List EvEvent} {e : EvEvent} (h : EndsOnceWithin n out) (hm : n < m)
    (he : ∀ st tag off, e ≠ .finish st tag off) : EndsOnceWithin m (e :: out) := by
  obtain ⟨init, st, tag, off, rfl, hinit, hlen⟩ := h
  refine ⟨e :: init, st, tag, off, rfl, fun e' he' => ?_, Nat.lt_of_le_of_lt hlen hm⟩
  rcases List.mem_cons.1 he' with rfl | he'
  exacts [he, hinit e' he']

/-- 43 R191, by the rules of the loop: each READING or ACK uses seven bytes, the last ACK perhaps fewer. -/
theorem DecodesFrom.endsOnce {P : List Byte} {cur : Nat} {out : List EvEvent} (h : DecodesFrom P cur out) :
    EndsOnceWithin ((P.length - cur + 6) / 7) out := by
  induction h with
  | atEnd => exact .single ..
  | sensor cur kind lx hx ly hy lz hz out _ _ _ _ _ _ hlast _ ih =>
    have hlt := (List.getElem?_eq_some_iff.1 hlast).1
    exact ih.cons (by omega) fun _ _ _ he => by cases he
  | sensorCut => exact .single ..
  | ack cur sid flag out _ _ hflag _ ih =>
    have hlt := (List.getElem?_eq_some_iff.1 hflag).1
    exact ih.cons (by omega) fun _ _ _ he => by cases he
  | ackCut => exact .single ..
  | unknown => exact .single ..

/-- Settles O41: DECODE is derived by the loop's rules from index 1, which end once. -/
theorem decodeEndsOnce : Obligations.DecodeEndsOnce := by
  obtain ⟨hnil, hderived, -⟩ := decodeFollowsAlgorithm
  intro P
  by_cases hP : P = []
  · subst hP
    exact EndsOnceWithin.single ..
  · exact (hderived P hP).endsOnce

/-! ### DECODE as the run of its passes -/

/-- The loop of DECODE from an index of the payload on: its events and its last cursor. -/
def loopFrom (P : List Byte) (fuel cur : Nat) : List EvEvent × Nat := decodeLoop P.length fuel cur (P.drop cur)

/-- The state after the loop's events have been emitted, back in IDLE. -/
def State.afterLoop (s : State) (r : List EvEvent × Nat) : State :=
  { s.emit (r.1.map OutEvent.ev) with dCur := r.2, phase := .idle }

/-- One pass at a cursor of the payload is one turn of the loop: the last one, or one event and a stride. -/
theorem step_loopFrom {P : List Byte} {s : State} (h : DecodingByPasses s) (hlen : s.dLen = P.length)
    (hcells : readCells s.fb 0 P.length = .ok P) (fuel : Nat) :
    step s = .next (s.afterLoop (loopFrom P (fuel + 1) s.dCur)) ∨
      ∃ e cur, step s = .next { s.emit [.ev e] with dCur := cur } ∧
        loopFrom P (fuel + 1) s.dCur = (e :: (loopFrom P fuel cur).1, (loopFrom P fuel cur).2) ∧
        s.dCur < P.length ∧ s.dCur < cur ∧ (cur = s.dCur + 7 ∨ cur = P.length) := by
  by_cases hend : P.length ≤ s.dCur
  · refine .inl ((step_pass_atEnd h (hlen ▸ hend)).trans ?_)
    rw [loopFrom, List.drop_eq_nil_of_le hend]
    rfl
  have hlt : s.dCur < s.dLen := hlen ▸ Nat.not_le.1 hend
  have hget : P[s.dCur]? = some P[s.dCur] := List.getElem?_eq_getElem (hlen ▸ hlt)
  obtain ⟨bs, hfetch, hdecode⟩ := segmentBytes_of_payload (P := P) (by rw [hlen, hcells]) hlt
  rw [drop_of_getElem? hget] at hdecode
  generalize P[s.dCur] = t at hget hdecode
  cases hk : sensorKind t with
  | some kind =>
    obtain rfl := sensorKind_eq_some.1 hk
    rw [decodeSegment_sensor] at hdecode
    have hstep := (step_pass_segment h hlt hfetch hdecode).trans (exec_sensorInstr h.phase kind _)
    cases hv : axesOf (P.drop (s.dCur + 1)) with
    | some v =>
      rw [hv] at hstep
      refine .inr ⟨readingOf kind v, s.dCur + 7, hstep, ?_, by omega, by omega, .inl rfl⟩
      simp only [loopFrom, drop_of_getElem? hget, decodeLoop, sensorKind_tag, hv, drop_stride]
    | none =>
      rw [hv] at hstep
      refine .inl (hstep.trans ?_)
      simp only [loopFrom, drop_of_getElem? hget, decodeLoop, sensorKind_tag, hv]
      rfl
  | none =>
    by_cases h1 : t = 1
    · subst h1
      rw [decodeSegment_ack] at hdecode
      have hstep := (step_pass_segment h hlt hfetch hdecode).trans (exec_segEnableAck h.phase _)
      cases ha : ackOf (P.drop (s.dCur + 1)) with
      | some a =>
        rw [ha, State.ackSegment, hlen] at hstep
        refine .inr ⟨.ack a.sid a.flag, min (s.dCur + 7) P.length, hstep, ?_, by omega, by omega, by omega⟩
        simp only [loopFrom, drop_of_getElem? hget, decodeLoop, sensorKind_one, if_true, ha, drop_stride, drop_clamped]
      | none =>
        rw [ha] at hstep
        refine .inl (hstep.trans ?_)
        simp only [loopFrom, drop_of_getElem? hget, decodeLoop, sensorKind_one, if_true, ha]
        rfl
    · rw [decodeSegment_unknown h1 hk] at hdecode
      refine .inl (((step_pass_segment h hlt hfetch hdecode).trans (exec_segUnknown h.phase t)).trans ?_)
      simp only [loopFrom, drop_of_getElem? hget, decodeLoop, hk, if_neg h1]
      rfl

/-- The passes from a cursor on reach the end of the loop, one pass for every seven bytes and a last one. -/
theorem steps_loopFrom {P : List Byte} {fuel : Nat} {s : State} (h : DecodingByPasses s) (hlen : s.dLen = P.length)
    (hcells : readCells s.fb 0 P.length = .ok P) (hfuel : P.length - s.dCur < fuel) :
    ∃ k, k ≤ (P.length - s.dCur + 6) / 7 + 1 ∧ steps k s = .next (s.afterLoop (loopFrom P fuel s.dCur)) := by
  induction fuel generalizing s with
  | zero => exact absurd hfuel (Nat.not_lt_zero _)
  | succ fuel ih =>
    rcases step_loopFrom h hlen hcells fuel with hlast | ⟨e, cur, hstep, hloop, hin, hlt, hcur⟩
    · exact ⟨1, Nat.le_add_left _ _, steps_succ_of_next hlast 0⟩
    · let t : State := { s.emit [.ev e] with dCur := cur }
      have hrest : t.afterLoop (loopFrom P fuel cur) = s.afterLoop (loopFrom P (fuel + 1) s.dCur) := by
        simp [t, State.afterLoop, hloop, State.emit]
      obtain ⟨k, hk, hsteps⟩ := ih (s := t) ⟨h.rst, h.phase, h.grain⟩ hlen hcells (by
        show P.length - cur < fuel
        omega)
      refine ⟨k + 1, ?_, (steps_succ_of_next hstep k).trans (hsteps.trans (congrArg _ hrest))⟩
      have hk' : k ≤ (P.length - cur + 6) / 7 + 1 := hk
      omega

/-- DECODE is the loop from the start of the payload, the length byte skipped (43 R172, R173). -/
theorem decodeRun_eq_loopFrom (P : List Byte) :
    ∃ fuel, P.length - min 1 P.length < fuel ∧ decodeRun P = loopFrom P fuel (min 1 P.length) := by
  cases P with
  | nil => exact ⟨1, Nat.one_pos, rfl⟩
  | cons b bs =>
    have hone : min 1 (b :: bs).length = 1 := Nat.min_eq_left (Nat.le_add_left _ _)
    rw [hone]
    exact ⟨(b :: bs).length, Nat.lt_succ_self _, rfl⟩

theorem State.decodeWhole_eq_afterLoop {s : State} {P : List Byte} (h : s.dLen = P.length) :
    s.decodeWhole P = s.afterLoop (decodeRun P) := by
  rw [State.decodeWhole, ← h]
  rfl

/-- Settles O42: the passes from the start of the payload are the loop of DECODE. -/
theorem passesRefineDecode : Obligations.PassesRefineDecode := by
  intro P s h hlen hcur hcells
  obtain ⟨fuel, hfuel, hrun⟩ := decodeRun_eq_loopFrom P
  rw [← hcur] at hfuel hrun
  obtain ⟨k, hk, hsteps⟩ := steps_loopFrom h hlen hcells hfuel
  refine ⟨k, by omega, ?_⟩
  rw [hsteps, exec_decode h.phase, State.decodeWhole_eq_afterLoop hlen, hrun]

end Sys2Proof.Machine
end

section
/-! PROOFS. Across the units: what a step takes from the offered events (20 R60), independence from history (20 R66),
and the block's answer to a raw frame (43 R190). -/

namespace Sys2Proof.Machine

open Sys2Proof

/-! ### What a step takes (20 R60) -/

/-- No instruction takes an event: the step that runs it does (log 29). -/
theorem exec_offered {i : Instr} {s t : State} (he : exec i s = .next t) : t.offered = s.offered := by
  have hidle {u : State} (h : whenIdle s u = .next t) (hu : u.offered = s.offered) : t.offered = s.offered := by
    rcases whenIdle_next h with ⟨-, rfl⟩ | ⟨-, rfl⟩
    exacts [hu, rfl]
  have hdecoding {u : State} (h : whenDecoding s u = .next t) (hu : u.offered = s.offered) :
      t.offered = s.offered := by
    rcases whenDecoding_next h with ⟨-, rfl⟩ | ⟨-, rfl⟩
    exacts [hu, rfl]
  have hsensor (kind : ReadingKind) (axes : Option Triple) : (s.sensorSegment kind axes).offered = s.offered := by
    cases axes <;> rfl
  have hack (ack : Option AckBytes) : (s.ackSegment ack).offered = s.offered := by cases ack <;> rfl
  cases i with
  | ckStart | ckAbsorb | ckRead | ckReserved | cksumOut | cksumIn | disable | enable | setAccelRange
  | setSamplingRate => exact hidle he rfl
  | validate raw =>
    by_cases hraw : raw = []
    · subst hraw
      cases he
    · cases (execValidate_of_ne_nil hraw s).symm.trans he
      exact State.rxRun_offered s raw
  | decode | segUnknown => exact hdecoding he rfl
  | segEnableAck ack => exact hdecoding he (hack ack)
  | segAcc axes | segMag axes | segGyro axes => exact hdecoding he (hsensor _ axes)

/-- The oldest RX event, behind events that are none. -/
theorem takeRx_append {u v : List PortEvent} {b : Byte} {last : Bool} (h : ∀ e ∈ u, isRx e = false) :
    takeRx (u ++ .rx b last :: v) = some (b, last, u ++ v) := by
  induction u with
  | nil => rfl
  | cons e u ih =>
    have hrest := ih fun e' he' => h e' (List.mem_cons_of_mem e he')
    cases e with
    | ck | cmd => rw [List.cons_append, takeRx, hrest] <;> simp
    | rx => cases h _ (List.mem_cons_self ..)

theorem takeRx_eq_none {es : List PortEvent} (h : ∀ e ∈ es, isRx e = false) : takeRx es = none := by
  induction es with
  | nil => rfl
  | cons e es ih =>
    have hrest := ih fun e' he' => h e' (List.mem_cons_of_mem e he')
    cases e with
    | ck | cmd => rw [takeRx, hrest]; simp
    | rx => cases h _ (List.mem_cons_self ..)

/-- FRAMING and DECODING take no event. -/
theorem step_offered_of_busy {s t : State} (hr : s.rst = false) (hp : s.phase = .framing ∨ s.phase = .decoding)
    (he : step s = .next t) : t.offered = s.offered := by
  rcases hp with hp | hp
  · rw [step_framing hr hp] at he
    rcases framerStep_next he with ⟨-, rfl⟩ | ⟨-, b, -, rfl⟩ <;> rfl
  · rw [step, nextAction_decoding hr hp] at he
    rcases decodeAction_cases s with h | ⟨bs, i, -, -, h⟩ | ⟨P, -, h⟩ | ⟨f, h, -⟩ <;> rw [h] at he
    · cases he
      rfl
    · exact exec_offered (s := { s with offered := s.offered }) he
    · exact exec_offered (i := .decode P) (s := { s with offered := s.offered }) he
    · cases he

theorem exec_decodeCk_phase {op : BitVec 2} {m : Bool} {b : Byte} {s t : State}
    (he : exec (decodeCk op m b) s = .next t) : t.phase = s.phase := by
  have hop : decodeCk op m b = .ckStart m b ∨ decodeCk op m b = .ckAbsorb m b ∨ decodeCk op m b = .ckRead m b ∨
      decodeCk op m b = .ckReserved m b := by
    rcases op_cases op with rfl | rfl | rfl | rfl <;> simp [decodeCk]
  exact (checksumOperationsFrame _ s t (.inl ⟨m, b, hop⟩) he).1

/-- Settles O13: each phase's action, and what it does to the offered events and the phase. -/
theorem phaseDecidesAcceptance : Obligations.PhaseDecidesAcceptance := by
  intro s t hr he
  refine ⟨fun hp => step_offered_of_busy hr hp he, fun hp hno => ?_, fun u b last v hp ho hu => ?_, fun hp ho => ?_,
    fun e rest hp hg ho => ?_⟩
  · exact (Host.Outcome.next.inj ((step_receiving_wait hr hp (takeRx_eq_none hno)).symm.trans he)).symm
  · have htake : takeRx s.offered = some (b, last, u ++ v) := ho ▸ takeRx_append hu
    obtain rfl := Host.Outcome.next.inj ((step_receiving hr hp htake).symm.trans he)
    have hphases := TakesRx.phase_rxEvent (s := { s with offered := u ++ v }) (.inl hp) b
    refine ⟨State.rxEvent_offered _ b last, ?_, ?_⟩
    · rintro rfl
      exact hphases.1
    · rintro rfl
      exact hphases.2
  · exact (Host.Outcome.next.inj ((step_idle_wait hr hp ho).symm.trans he)).symm
  · cases e with
    | ck op m b =>
      have hexec := (step_ck ⟨hr, hp, hg⟩ ho).symm.trans he
      refine ⟨exec_offered hexec, fun _ _ _ _ => (exec_decodeCk_phase hexec).trans hp, ?_, ?_, ?_⟩ <;> intros <;>
        contradiction
    | cmd op sid arg =>
      obtain rfl := Host.Outcome.next.inj ((step_cmd ⟨hr, hp, hg⟩ ho).symm.trans he)
      refine ⟨rfl, ?_, fun _ _ _ _ => rfl, ?_, ?_⟩ <;> intros <;> contradiction
    | rx b last =>
      have htakes : TakesRx { s with offered := rest } := .inr ⟨hp, hg⟩
      obtain rfl := Host.Outcome.next.inj ((step_rx hr (.inr ⟨hp, hg⟩) ho).symm.trans he)
      refine ⟨State.rxEvent_offered _ b last, ?_, ?_, ?_, ?_⟩
      · intros
        contradiction
      · intros
        contradiction
      · intro _ heq
        cases heq
        exact (htakes.phase_rxEvent b).1
      · intro _ heq
        cases heq
        exact (htakes.phase_rxEvent b).2

/-! ### Independence from history (10 R20, 20 R66) -/

/-- Two idle blocks of the same capacity give a raw frame the same verdict and the decoder the same payload. -/
theorem validate_ignores_history {raw : List Byte} (hraw : raw ≠ []) {s1 s2 t1 t2 : State} (h1 : s1.phase = .idle)
    (h2 : s2.phase = .idle) (hcfg : s1.cfg = s2.cfg) (he1 : exec (.validate raw) s1 = .next t1)
    (he2 : exec (.validate raw) s2 = .next t2) :
    t1.phase = t2.phase ∧ t1.mode = t2.mode ∧ t1.acc = t2.acc ∧ (∃ es, Emits s1 t1 es ∧ Emits s2 t2 es) ∧
    (t1.phase = .decoding →
      t1.vLen = t2.vLen ∧ t1.dLen = t2.dLen ∧ t1.dCur = t2.dCur ∧
      readCells t1.fb 0 t1.dLen = readCells t2.fb 0 t2.dLen ∧
      ∃ P, readCells t1.fb 0 t1.dLen = .ok P ∧ Instr.validate raw = .validate (serializeWithChecksum P)) := by
  obtain ⟨u1, hu1, hmode1, hacc1, hvLen1, -, -, -, -, -, hbad1, hover1, hok1⟩ := validateCompletes raw s1 h1 hraw
  obtain ⟨u2, hu2, hmode2, hacc2, hvLen2, -, -, -, -, -, hbad2, hover2, hok2⟩ := validateCompletes raw s2 h2 hraw
  obtain rfl := Host.Outcome.next.inj (hu1.symm.trans he1)
  obtain rfl := Host.Outcome.next.inj (hu2.symm.trans he2)
  rw [← hcfg] at hvLen2 hover2 hok2
  have hmode := hmode1.trans hmode2.symm
  have hacc := hacc1.trans hacc2.symm
  have hidle {P : Prop} (hp : u1.phase = .idle) (hd : u1.phase = .decoding) : P := by
    rw [hp] at hd
    cases hd
  by_cases hzero : xorFold raw = 0
  · obtain ⟨P, hP⟩ := (validateFrame_ok_iff hraw).2 hzero
    by_cases hlen : raw.length ≤ s1.cfg.nMax
    · obtain ⟨hp1, hdLen1, hdCur1, hcells1, hes1⟩ := hok1 P hP hlen
      obtain ⟨hp2, hdLen2, hdCur2, hcells2, hes2⟩ := hok2 P hP hlen
      exact ⟨hp1.trans hp2.symm, hmode, hacc, ⟨[], hes1, hes2⟩, fun _ => ⟨hvLen1.trans hvLen2.symm,
        hdLen1.trans hdLen2.symm, hdCur1.trans hdCur2.symm, hcells1.trans hcells2.symm, P, hcells1,
        congrArg _ (validateFrame_eq_ok hP)⟩⟩
    · obtain ⟨hp1, -, hes1⟩ := hover1 P hP (Nat.not_le.1 hlen)
      obtain ⟨hp2, -, hes2⟩ := hover2 P hP (Nat.not_le.1 hlen)
      exact ⟨hp1.trans hp2.symm, hmode, hacc, ⟨_, hes1, hes2⟩, hidle hp1⟩
  · have hbad := (validateFrame_mismatch_iff hraw).2 hzero
    obtain ⟨hp1, -, hes1⟩ := hbad1 hbad
    obtain ⟨hp2, -, hes2⟩ := hbad2 hbad
    exact ⟨hp1.trans hp2.symm, hmode, hacc, ⟨_, hes1, hes2⟩, hidle hp1⟩

/-- Settles O49: a checksum sequence and a command emit what their operands say; VALIDATE by its completion. -/
theorem outputsIgnoreHistory : Obligations.OutputsIgnoreHistory := by
  intro i s1 s2 t1 t2 hi h1 h2 hcfg he1 he2
  have hidle {P : Prop} (hd : s1.phase = .decoding) : P := by
    rw [h1] at hd
    cases hd
  rcases hi with ⟨bytes, rfl | rfl | rfl⟩ | ⟨op, sid, arg, rfl⟩
  · cases (exec_cksumOut_idle h1 bytes).symm.trans he1
    cases (exec_cksumOut_idle h2 bytes).symm.trans he2
    exact ⟨h1.trans h2.symm, rfl, rfl, ⟨_, rfl, rfl⟩, hidle⟩
  · cases (exec_cksumIn_idle h1 bytes).symm.trans he1
    cases (exec_cksumIn_idle h2 bytes).symm.trans he2
    exact ⟨h1.trans h2.symm, rfl, rfl, ⟨_, rfl, rfl⟩, hidle⟩
  · have hraw : bytes ≠ [] := by
      rintro rfl
      cases he1
    exact validate_ignores_history hraw h1 h2 hcfg he1 he2
  · cases (exec_cmd_idle h1 op sid arg).symm.trans he1
    cases (exec_cmd_idle h2 op sid arg).symm.trans he2
    exact ⟨rfl, rfl, rfl, ⟨_, rfl, rfl⟩, fun hd => by cases hd⟩

/-! ### The answer to a raw frame (43 R190) -/

/-- A raw frame offered byte by byte to an idle block is answered by `receive`, and the block is idle again. -/
theorem steps_receive {raw : List Byte} (hraw : raw ≠ []) {rest : List PortEvent} {s : State} (h : ReadyForEvents s)
    (ho : s.offered = rxEvents raw ++ rest) :
    ∃ (k : Nat) (t : State) (es : List EvEvent),
      steps k s = .next t ∧ t.phase = .idle ∧ t.offered = rest ∧
      receive s.cfg.nMax raw = some es ∧ Emits s t (es.map OutEvent.ev) := by
  obtain ⟨t, ht, -, -, -, -, -, -, -, ⟨hcfg, hrst, hoffered⟩, hbad, hover, hok⟩ :=
    validateCompletes raw { s with offered := rest } h.phase hraw
  have hsteps : steps raw.length s = .next t := (rxEventsRefineValidate.1 raw rest s h hraw ho).trans ht
  by_cases hzero : xorFold raw = 0
  · obtain ⟨P, hP⟩ := (validateFrame_ok_iff hraw).2 hzero
    by_cases hlen : raw.length ≤ s.cfg.nMax
    · obtain ⟨hp, hdLen, hdCur, hcells, hes⟩ := hok P hP hlen
      have hpasses : DecodingByPasses t := ⟨hrst.trans h.rst, hp, (congrArg Config.grain hcfg).trans h.grain⟩
      obtain ⟨k, -, hdecode⟩ := passesRefineDecode P t hpasses hdLen hdCur (hdLen ▸ hcells)
      refine ⟨raw.length + k, t.decodeWhole P, decodePayload P, ?_, rfl, hoffered, ?_, ?_⟩
      · rw [steps_add hsteps, hdecode, exec_decode hp]
      · simp only [receive, hP, if_pos hlen]
      · rw [Emits, State.decodeWhole_emitted, hes, List.append_nil]
        rfl
    · obtain ⟨hp, -, hes⟩ := hover P hP (Nat.not_le.1 hlen)
      refine ⟨raw.length, t, [.finish .frameOverflow 0 0], hsteps, hp, hoffered, ?_, hes⟩
      simp only [receive, hP, if_neg hlen]
  · have hmismatch := (validateFrame_mismatch_iff hraw).2 hzero
    obtain ⟨hp, -, hes⟩ := hbad hmismatch
    refine ⟨raw.length, t, [.finish .checksumMismatch 0 0], hsteps, hp, hoffered, ?_, hes⟩
    simp only [receive, hmismatch]

/-- The block's steps in a session are its steps alone, and the host's side stays but for its waits. -/
theorem Session.run_blockSteps {k : Nat} {h : Session} {t : State} (e : steps k h.block = .next t) :
    ∃ h', Session.run (List.replicate k .blockStep) h = .next h' ∧ h'.block = t ∧ h'.seq = h.seq ∧
      h'.issued = h.issued ∧ h'.aborted = h.aborted := by
  induction k generalizing h with
  | zero =>
    cases e
    exact ⟨h, rfl, rfl, rfl, rfl, rfl⟩
  | succ k ih =>
    cases hb : Sys2Proof.Machine.step h.block with
    | next b =>
      rw [steps_succ_of_next hb] at e
      obtain ⟨u, hu⟩ : ∃ u, h.step .blockStep = .next u := by
        simp only [Session.step, hb]
        exact ⟨_, rfl⟩
      obtain ⟨b', c, p, hb', rfl⟩ := Session.step_blockStep hu
      cases hb.symm.trans hb'
      obtain ⟨h', hrun, hrest⟩ := ih (h := { h with block := b, awaitCst := c, awaitPace := p }) e
      refine ⟨h', ?_, hrest⟩
      simp only [List.replicate_succ, Session.run, hu, hrun]
    | fault f =>
      rw [steps, hb] at e
      cases e
    | refused r =>
      rw [steps, hb] at e
      cases e

/-- Settles O43: the block alone, and the same in a session whose read loop has offered the frame. -/
theorem blockAnswersReceive : Obligations.BlockAnswersReceive := by
  refine ⟨fun raw rest s h hraw ho => steps_receive hraw h ho, fun raw h hmay hrst hgrain hraw => ?_⟩
  obtain ⟨haborted, hseq, hphase, hoffered⟩ := h.mayReadFrame_iff.1 hmay
  have hready : ReadyForEvents (h.offer (rxEvents raw)).block := ⟨hrst, hphase, hgrain⟩
  have ho : (h.offer (rxEvents raw)).block.offered = rxEvents raw ++ [] := by
    rw [Session.offer_block, hoffered, List.nil_append, List.append_nil]
  obtain ⟨k, t, es, hsteps, hp, hrest, hreceive, hes⟩ := steps_receive hraw hready ho
  obtain ⟨h', hrun, rfl, hseq', hissued, haborted'⟩ := Session.run_blockSteps hsteps
  refine ⟨k, h', es, ?_, hreceive, hes, ?_, hissued⟩
  · rw [Session.run, Session.step, if_pos hmay]
    exact hrun
  · exact h'.mayReadFrame_iff.2 ⟨haborted'.trans haborted, hseq'.trans hseq, hp, hrest⟩

end Sys2Proof.Machine
end

section
/-! PROOFS. The Configuration Sequencer (spec/44_config_sequencer.md): the frames of BRING_UP, the order in which a
session issues its commands, and its waits. -/

namespace Sys2Proof.Machine

open Sys2Proof

/-! ### BRING_UP on an idle block -/

/-- Whole commands offered one behind another are answered one behind another. -/
theorem steps_commands (cmds : List (BitVec 2 × Byte × Arg)) {s : State} (hr : s.rst = false) (hp : s.phase = .idle)
    (hg : s.cfg.grain = .operation) (ho : s.offered = cmds.map fun c => .cmd c.1 c.2.1 c.2.2) :
    ∃ t, steps cmds.length s = .next t ∧ t.phase = .idle ∧ t.offered = [] ∧
      Emits s t (cmds.flatMap fun c => commandOutput c.1 c.2.1 c.2.2) := by
  induction cmds generalizing s with
  | nil => exact ⟨s, rfl, hp, ho, (List.append_nil _).symm⟩
  | cons c cmds ih =>
    obtain ⟨op, sid, arg⟩ := c
    let u := s.withOffered (cmds.map fun c => .cmd c.1 c.2.1 c.2.2)
    have hop : decodeOperation s.offered = .ok (decodeCmd op sid arg, u.offered) := by
      rw [ho]
      rfl
    have hstep := (step_operation hr hp hg hop).trans (exec_cmd_idle (s := u) hp op sid arg)
    obtain ⟨t, hsteps, hphase, hoffered, hes⟩ := ih (s := u.sendCommand op sid _ _ _) hr rfl hg rfl
    refine ⟨t, (steps_succ_of_next hstep _).trans hsteps, hphase, hoffered, hes.trans ?_⟩
    rw [State.sendCommand_emitted, List.append_assoc]
    rfl

/-- The fields of the twelve CMD events of BRING_UP (30 R92). -/
def bringUpFields (range rate : Arg) : List (BitVec 2 × Byte × Arg) :=
  [(0, 0x80, 0), (0, 0x81, 0), (0, 0x82, 0), (0, 0x83, 0), (0, 0x84, 0), (2, 0, range), (3, 0x80, rate), (1, 0x80, 0),
    (3, 0x81, rate), (1, 0x81, 0), (3, 0x82, rate), (1, 0x82, 0)]

theorem bringUp_events (range rate : Arg) :
    (bringUp range rate).flatMap commandEvents = (bringUpFields range rate).map fun c => .cmd c.1 c.2.1 c.2.2 := rfl

theorem commandOutput_disable (sid : Byte) (arg : Arg) :
    commandOutput 0 sid arg = frameEvents (onOffBody sid 0) ++ [.cst false] := rfl

theorem commandOutput_enable (sid : Byte) (arg : Arg) :
    commandOutput 1 sid arg = frameEvents (onOffBody sid 1) ++ [.cst false] := rfl

theorem commandOutput_range (sid : Byte) (arg : Arg) :
    commandOutput 2 sid arg = frameEvents (rangeBody (rangeValue arg)) ++ [.cst (rangeCoerced arg.toInt)] := rfl

theorem commandOutput_rate (sid : Byte) (arg : Arg) :
    commandOutput 3 sid arg = frameEvents (rateBody sid (rateValue arg)) ++ [.cst (rateCoerced arg.toInt)] := rfl

/-- A command sends one byte more than its body. -/
theorem length_filter_not_isCst_commandOutput (op : BitVec 2) (sid : Byte) (arg : Arg) :
    ((commandOutput op sid arg).filter fun e => !OutEvent.isCst e).length = (bodyLength op).toNat + 1 := by
  rcases op_cases op with rfl | rfl | rfl | rfl <;> rfl

/-- A command is answered by one CST. -/
theorem length_filter_isCst_commandOutput (op : BitVec 2) (sid : Byte) (arg : Arg) :
    ((commandOutput op sid arg).filter OutEvent.isCst).length = 1 := by
  rcases op_cases op with rfl | rfl | rfl | rfl <;> rfl

/-- Settles O58: twelve whole commands; the bytes and completions are counted command by command. -/
theorem bringUpEmitsTwelveFrames : Obligations.BringUpEmitsTwelveFrames := by
  intro range rate s hr hp hg ho
  obtain ⟨t, hsteps, hphase, hoffered, hes⟩ :=
    steps_commands (bringUpFields range rate) hr hp hg (ho.trans (bringUp_events range rate))
  refine ⟨t, _, hsteps, hphase, hoffered, hes, ?_, ?_, ?_⟩
  · simp only [bringUpFields, List.flatMap_cons, List.flatMap_nil, commandOutput_disable, commandOutput_enable,
      commandOutput_range, commandOutput_rate, List.append_assoc, List.append_nil]
  · simp only [bringUpFields, List.flatMap_cons, List.flatMap_nil, List.filter_append, List.length_append,
      length_filter_not_isCst_commandOutput]
    rfl
  · simp only [bringUpFields, List.flatMap_cons, List.flatMap_nil, List.filter_append, List.length_append,
      length_filter_isCst_commandOutput]
    rfl

/-! ### The order of a session's commands (44 R200 to R209) -/

/-- The commands of the states that come after one. -/
def commandsAfter (range rate : Arg) (q : SeqState) : List Instr :=
  (seqPath 8 (seqNext q)).flatMap (seqCommands range rate)

/-- The states of bring-up after the start, in their order, Ready the last. -/
def bringUpStates : List SeqState := seqPath 9 .disableAll

theorem disableAll_mem_bringUpStates : .disableAll ∈ bringUpStates := by decide

theorem seqNext_mem_bringUpStates : ∀ q ∈ bringUpStates, seqNext q ∈ bringUpStates := by decide

/-- Entering the next state takes its commands from those still to come. -/
theorem commandsAfter_eq (range rate : Arg) {q : SeqState} (h : q ∈ bringUpStates) :
    commandsAfter range rate q = seqCommands range rate (seqNext q) ++ commandsAfter range rate (seqNext q) := by
  simp only [bringUpStates, seqPath, seqNext, List.mem_cons, List.not_mem_nil, or_false] at h
  rcases h with rfl | rfl | rfl | rfl | rfl | rfl | rfl | rfl | rfl <;> rfl

/-- What holds of a session after its start: the commands issued, those to be issued and those of later states are
BRING_UP, as long as no write failed; and what has been issued begins BRING_UP in any case. -/
structure BringUpInv (range rate : Arg) (h : Session) : Prop where
  sameRange : h.range = range
  sameRate : h.rate = rate
  issued : h.issued <+: bringUp range rate
  onPath : h.aborted = false → h.seq ∈ bringUpStates
  pending : h.aborted = false → h.issued ++ (h.todo ++ commandsAfter range rate h.seq) = bringUp range rate
  ready : h.aborted = false → h.seq = .ready → h.todo = []

section
variable {range rate : Arg} {h : Session} (hinv : BringUpInv range rate h)
include hinv

/-- The block, the offered events and the waits are no part of it. -/
theorem BringUpInv.congr {h' : Session} (hseq : h'.seq = h.seq) (htodo : h'.todo = h.todo)
    (hissued : h'.issued = h.issued) (hrange : h'.range = h.range) (hrate : h'.rate = h.rate)
    (haborted : h'.aborted = h.aborted) : BringUpInv range rate h' where
  sameRange := hrange.trans hinv.sameRange
  sameRate := hrate.trans hinv.sameRate
  issued := hissued ▸ hinv.issued
  onPath := by
    rw [haborted, hseq]
    exact hinv.onPath
  pending := by
    rw [haborted, hseq, htodo, hissued]
    exact hinv.pending
  ready := by
    rw [haborted, hseq, htodo]
    exact hinv.ready

theorem BringUpInv.advance : BringUpInv range rate h.advance := by
  rcases h.advance_cases with heq | ⟨hmay, i, todo, htodo, heq⟩ | ⟨hmay, htodo, heq⟩ <;> rw [heq]
  · exact hinv
  · have hpending (ha : h.aborted = false) :
        (h.issued ++ [i]) ++ (todo ++ commandsAfter range rate h.seq) = bringUp range rate := by
      rw [← hinv.pending ha, htodo]
      simp
    have ha : h.aborted = false := by
      simp only [Session.mayAdvance, Bool.and_eq_true, Bool.not_eq_true'] at hmay
      exact hmay.1.1.1.1
    refine ⟨hinv.sameRange, hinv.sameRate, ⟨_, hpending ha⟩, hinv.onPath, hpending, fun _ hready => ?_⟩
    cases htodo.symm.trans (hinv.ready ha hready)
  · refine ⟨hinv.sameRange, hinv.sameRate, hinv.issued, fun ha => seqNext_mem_bringUpStates _ (hinv.onPath ha),
      fun ha => ?_, fun _ hready => ?_⟩
    · have hpending := hinv.pending ha
      rw [htodo, List.nil_append, commandsAfter_eq range rate (hinv.onPath ha)] at hpending
      rw [hinv.sameRange, hinv.sameRate]
      exact hpending
    · exact congrArg (seqCommands h.range h.rate) hready

/-- Whatever happens in a session after its start keeps it. -/
theorem BringUpInv.step {e : SessionEvent} {h' : Session} (he : h.step e = .next h') : BringUpInv range rate h' := by
  cases e with
  | startup r q =>
    have hstarted : ¬(h.seq = .idle ∧ h.aborted = false) := fun ⟨hidle, ha⟩ =>
      absurd (hidle ▸ hinv.onPath ha) (by decide)
    rw [Session.step, if_neg hstarted] at he
    cases he
    exact hinv
  | advance =>
    cases he
    exact hinv.advance
  | blockStep =>
    obtain ⟨_, _, _, -, rfl⟩ := Session.step_blockStep he
    exact hinv.congr rfl rfl rfl rfl rfl rfl
  | transportByte =>
    cases he
    exact hinv.congr rfl rfl rfl rfl rfl rfl
  | readFrame =>
    cases he
    split
    · exact hinv.congr rfl rfl rfl rfl rfl rfl
    · exact hinv
  | paceElapsed =>
    cases he
    exact hinv.congr rfl rfl rfl rfl rfl rfl
  | writeFailure =>
    cases he
    refine ⟨hinv.sameRange, hinv.sameRate, hinv.issued, ?_, ?_, ?_⟩ <;> rintro ⟨⟩

theorem BringUpInv.run {events : List SessionEvent} {h' : Session} (he : Session.run events h = .next h') :
    BringUpInv range rate h' := by
  induction events generalizing h with
  | nil =>
    cases he
    exact hinv
  | cons e events ih =>
    rw [Session.run] at he
    split at he
    next hu => exact ih (hinv.step hu) he
    next => cases he
    next => cases he

end

/-- The start of a session establishes it: all of BRING_UP is still to come. -/
theorem BringUpInv.startup (range rate : Arg) :
    BringUpInv range rate
      { Session.initial with seq := .disableAll, todo := disableAll, range := range, rate := rate } where
  sameRange := rfl
  sameRate := rfl
  issued := List.nil_prefix
  onPath := fun _ => disableAll_mem_bringUpStates
  pending := fun _ => rfl
  ready := by rintro - ⟨⟩

/-- Settles O59: the start establishes `BringUpInv` and everything after it keeps it; at Ready nothing is pending. -/
theorem sessionIssuesBringUpInOrder : Obligations.SessionIssuesBringUpInOrder := by
  intro range rate events h he
  have hinv := (BringUpInv.startup range rate).run (events := events) he
  refine ⟨hinv.issued, fun hready ha => ?_⟩
  have hpending := hinv.pending ha
  rw [hinv.ready ha hready, hready] at hpending
  exact (List.append_nil _).symm.trans hpending

/-! ### The waits of a session (44 R207 to R209) -/

/-- Settles O60: `mayAdvance` tests the three waits, and the step that brings the CST starts the delay. -/
theorem sessionWaitsForPace : Obligations.SessionWaitsForPace := by
  intro h
  refine ⟨fun hwait => ?_, fun hissued => ?_, fun h' he hawait hdone => ?_⟩
  · have hmay : h.mayAdvance = false := by
      rcases hwait with hw | hw | hw <;> simp [Session.mayAdvance, hw]
    rw [Session.advance, if_neg (by simp [hmay])]
  · rcases h.advance_cases with heq | ⟨-, i, todo, -, heq⟩ | ⟨-, -, heq⟩ <;> rw [heq] at hissued ⊢
    · exact absurd rfl hissued
    · exact absurd rfl hissued
  · rw [Session.step] at he
    split at he
    next b _ =>
      cases he
      have hcst : (b.emitted.drop h.block.emitted.length).any OutEvent.isCst = true := by
        simpa [hawait] using hdone
      simp [hcst]
    next => cases he
    next => cases he

end Sys2Proof.Machine
end
